-- ==== Sys2Proof/Word.lean ====
section
/-! DEFINITION. The widths the spec gives values: 8-bit bytes (BYTE_W, ID_W, LEN_W, CNT_W), 16-bit operands and
results (POS_W, DUR_W, VBAT_W) and the 32-bit poll bound (TMO_W), all unsigned (rule R5). -/

namespace Sys2Proof

/-- One byte of a stream or of a frame, a servo id, a count, a length or an opcode (rule R5, BYTE_W, ID_W, CNT_W, LEN_W). -/
abbrev Byte := BitVec 8

/-- A position, a duration or a battery voltage in millivolts (rule R5, POS_W, DUR_W, VBAT_W). -/
abbrev Half := BitVec 16

/-- The poll bound and the poll counter (rule R5, TMO_W; rule R30). -/
abbrev Word := BitVec 32

end Sys2Proof
end

