-- ==== Sys2Proof/Config.lean ====
section
/-! DEFINITION. The parameters of rule R5, the outcomes a transport primitive may have (rules R46, R48), and the one
free value of the model: the transport's answer when no input of the run fixes it. -/

namespace Sys2Proof

/-- SYNC, each of the two header bytes of every frame (rules R5, R60). -/
abbrev Config.sync : Byte := 0x55

/-- MOVE_NMAX, the largest count of a MOVE whose length byte fits (rules R5, R70). -/
abbrev Config.moveMax : Nat := 83

/-- LIST_NMAX, the largest count of an UNLOAD or a POSQ whose length byte fits (rules R5, R70). -/
abbrev Config.listMax : Nat := 252

/-- BAT_RLEN, the whole length of a battery response (rules R5, R67, R71). -/
abbrev Config.batRlen : Nat := 6

/-- EXP_MAX, the largest expected response length, 3*252 + 5 (rule R5). -/
abbrev Config.expMax : Nat := 761

/-- How the transport answers a `TxWrite` (rule R46): `ok`, or `fail` after the first `sent` bytes (all of them where
`sent` is larger than the frame) have been handed over. -/
inductive TxOutcome where
  | ok
  | fail (sent : Nat)
deriving DecidableEq, Repr, Inhabited

/-- How the transport answers an `RxRead n` (rule R48): `ok`; `short` after `got` bytes; or `fail` after `lost` bytes have
gone from the head of the inbound buffer. `Machine.rxRead` says what an answer outside the contract counts as. -/
inductive RxOutcome where
  | ok
  | short (got : Nat)
  | fail (lost : Nat)
deriving DecidableEq, Repr, Inhabited

/-- The environment's choice for one engine step, "a free input of the step (a draw)" (section 4 of `20_memory.md`):
the answer to the write and the answer to the read, of which a step uses at most one. -/
structure Draw where
  tx : TxOutcome
  rx : RxOutcome
deriving DecidableEq, Repr, Inhabited

/-- The draw of a transport that keeps its contract: the write succeeds and the read gives all it was asked for. -/
def Draw.ok : Draw := ⟨.ok, .ok⟩

/-- FREE VALUE (log entry 2): the draw of the `n`-th engine step that no scheduled input fixes. It has no body, so
nothing is known of it. -/
opaque Config.freeDraw : Nat → Draw

end Sys2Proof
end

