-- ==== Sys2Proof/Syntax.lean ====
section
/-! DEFINITION. The instruction set: the closed set of four command frames and two response frames (rules R1, R62), with
the operands of the typed signatures of rule R75 and the response fields of rules R67 and R68. -/

namespace Sys2Proof

/-- The three-byte group of one servo in a position response (rule R68): the id echo, which is neither checked nor used,
and the position. -/
structure PosEntry where
  idEcho : Byte
  pos : Half
deriving DecidableEq, Repr

/-- One constructor per row of `opcode_table.json`. -/
inductive Instr where
  /-- MOVE, opcode 0x03 (rules R63, R81): `EncodeMove(servoIds, positions, durationMs)`. -/
  | move (ids : List Byte) (positions : List Half) (duration : Half)
  /-- BATQ, opcode 0x0F (rules R64, R82): `EncodeBatteryQuery()`. -/
  | batq
  /-- UNLOAD, opcode 0x14 (rules R65, R83): `EncodeUnload(servoIds)`. -/
  | unload (ids : List Byte)
  /-- POSQ, opcode 0x15 (rules R66, R84): `EncodePositionQuery(servoIds)`. -/
  | posq (ids : List Byte)
  /-- BATR, opcode 0x0F received (rules R67, R97): the unchecked length byte and the millivolts. -/
  | batr (length : Byte) (millivolts : Half)
  /-- POSR, opcode 0x15 received (rules R68, R98): the unchecked length byte, the unchecked count echo and one group per
  servo of the request. -/
  | posr (length : Byte) (countEcho : Byte) (entries : List PosEntry)
deriving DecidableEq, Repr

end Sys2Proof
end

