-- ==== Sys2Proof/WellFormed.lean ====
section
/-! DEFINITION. Which instructions have a frame: the operand sets that the encoder accepts (rules R70, R81, R83, R84) and
the responses that a request can ask for (rule R71). -/

namespace Sys2Proof

/-- MOVE needs as many positions as ids, at most 83 (rule R81); UNLOAD and POSQ need at most 252 ids (rules R83, R84);
BATQ and BATR are always well formed; a POSR has the count of a legal POSQ, at most 252 (rules R68, R71). -/
def Instr.wf : Instr → Bool
  | .move ids positions _ => ids.length == positions.length && decide (ids.length ≤ Config.moveMax)
  | .batq => true
  | .unload ids => decide (ids.length ≤ Config.listMax)
  | .posq ids => decide (ids.length ≤ Config.listMax)
  | .batr _ _ => true
  | .posr _ _ entries => decide (entries.length ≤ Config.listMax)

end Sys2Proof
end

