-- ==== Sys2Proof/Decode.lean ====
section
/-! DEFINITION. The wire formats: byte order, opcodes, the opcode table's match and mask, the total decoder from bytes to
an instruction or a named rejection, and after it the encoder. `encode` on a command is the frame encoder of the block
(rules R81 to R84); `decode` under the key `response` is the frame test of its CHECK phase (rules R96 to R98); `decode`
under the key `command` and `parseCommand` are the checking aid of `95_test_vectors.md` Part 4 (rule R76). -/

namespace Sys2Proof

/-- `lo8(v) = v mod 256` (notation of `00_scope.md`, rule R69). -/
def lo8 (v : Half) : Byte := BitVec.ofNat 8 (v.toNat % 256)

/-- `hi8(v) = v div 256` (rule R69). -/
def hi8 (v : Half) : Byte := BitVec.ofNat 8 (v.toNat / 256)

/-- `le16(lo, hi) = lo + 256*hi`: low byte first, never sign-extended (rules R41, R69). -/
def le16 (lo hi : Byte) : Half := BitVec.ofNat 16 (lo.toNat + 256 * hi.toNat)

/-- `mask_16(v) = v mod 65536`, the masking of a position or a duration (rule R86). -/
def mask16 (v : Nat) : Half := BitVec.ofNat 16 v

/-- A count or a length as one byte (rule R70); both fit whenever the instruction is well formed. -/
def toByte (n : Nat) : Byte := BitVec.ofNat 8 n

/-! ### Opcodes (rule R62) -/

abbrev opMove : Byte := 0x03
abbrev opBattery : Byte := 0x0F
abbrev opUnload : Byte := 0x14
abbrev opPosition : Byte := 0x15

/-- The opcode of an instruction's frame, at frame index 3 (rule R62). -/
def Instr.opcode : Instr → Byte
  | .move _ _ _ => opMove
  | .batq => opBattery
  | .unload _ => opUnload
  | .posq _ => opPosition
  | .batr _ _ => opBattery
  | .posr _ _ _ => opPosition

/-- The number of servo entries of an instruction (rules R63 to R68); BATQ and BATR have none. -/
def Instr.count : Instr → Nat
  | .move ids _ _ => ids.length
  | .batq => 0
  | .unload ids => ids.length
  | .posq ids => ids.length
  | .batr _ _ => 0
  | .posr _ _ entries => entries.length

/-! ### The decoder -/

/-- The direction, part of the key of a frame (rule R77). Of a response the receiver knows the opcode and the count of its
request before a byte arrives (rules R71, R74). -/
inductive Key where
  | command
  | response (echo : Byte) (n : Nat)
deriving DecidableEq, Repr

/-- Why bytes are not an instruction. -/
inductive DecodeError where
  /-- A sync byte is not 0x55 (rules R60, R96). -/
  | badSync
  /-- Byte 3 of a command frame is none of the four opcodes (rule R72). -/
  | badOpcode
  /-- Byte 3 of a response is not the opcode of the request (rule R96). -/
  | badEcho
  /-- A battery query's length byte is not the constant 2 (rules R64, R77), or, in `parseCommand`, the length byte is not
  the frame's length less 2. -/
  | badLength
  /-- The count byte is over the legal count of its command (rule R70). -/
  | countRange
  /-- The opcode of the request is of a command that has no response (rule R62). -/
  | noResponse
  /-- The bytes end before the frame does. -/
  | truncated
deriving DecidableEq, Repr

/-- `n` groups of id, low byte and high byte: the servo entries of a MOVE (rule R63). -/
def takeMoves : Nat → List Byte → Option (List Byte × List Half × List Byte)
  | 0, rest => some ([], [], rest)
  | n + 1, i :: lo :: hi :: rest =>
    match takeMoves n rest with
    | some (ids, ps, rest') => some (i :: ids, le16 lo hi :: ps, rest')
    | none => none
  | _ + 1, _ => none

/-- `n` id bytes: the servo list of an UNLOAD or a POSQ (rules R65, R66). -/
def takeIds : Nat → List Byte → Option (List Byte × List Byte)
  | 0, rest => some ([], rest)
  | n + 1, i :: rest =>
    match takeIds n rest with
    | some (ids, rest') => some (i :: ids, rest')
    | none => none
  | _ + 1, [] => none

/-- `n` groups of id echo, low byte and high byte: the entries of a POSR, the first at index 5 and its low position byte
at index 6 (rule R68, `90_conflicts.md` C3). -/
def takeEntries : Nat → List Byte → Option (List PosEntry × List Byte)
  | 0, rest => some ([], rest)
  | n + 1, i :: lo :: hi :: rest =>
    match takeEntries n rest with
    | some (es, rest') => some (⟨i, le16 lo hi⟩ :: es, rest')
    | none => none
  | _ + 1, _ => none

/-- The payload of a MOVE: count, duration low, duration high, entries (rule R63). -/
def decodeMove : List Byte → Except DecodeError (Instr × List Byte)
  | c :: dl :: dh :: rest =>
    if c.toNat > Config.moveMax then .error .countRange
    else match takeMoves c.toNat rest with
      | some (ids, ps, rest') => .ok (.move ids ps (le16 dl dh), rest')
      | none => .error .truncated
  | _ => .error .truncated

/-- The payload of an UNLOAD or a POSQ: count, ids (rules R65, R66). -/
def decodeIds (mk : List Byte → Instr) : List Byte → Except DecodeError (Instr × List Byte)
  | c :: rest =>
    if c.toNat > Config.listMax then .error .countRange
    else match takeIds c.toNat rest with
      | some (ids, rest') => .ok (mk ids, rest')
      | none => .error .truncated
  | [] => .error .truncated

/-- A command frame after its sync bytes: the kind is told by the opcode and, for BATQ alone, by the length byte (the
masks of rule R77), the rest by the layouts of rules R63 to R66. -/
def decodeCommand (len op : Byte) (payload : List Byte) : Except DecodeError (Instr × List Byte) :=
  if op = opMove then decodeMove payload
  else if op = opBattery then if len = 2 then .ok (.batq, payload) else .error .badLength
  else if op = opUnload then decodeIds .unload payload
  else if op = opPosition then decodeIds .posq payload
  else .error .badOpcode

/-- The payload of a BATR: millivolts low, millivolts high (rules R67, R97). -/
def decodeBatr (len : Byte) : List Byte → Except DecodeError (Instr × List Byte)
  | lo :: hi :: rest => .ok (.batr len (le16 lo hi), rest)
  | _ => .error .truncated

/-- The payload of a POSR to a request of `n` servos: count echo, then `n` groups (rules R68, R98). -/
def decodePosr (len : Byte) (n : Nat) : List Byte → Except DecodeError (Instr × List Byte)
  | c :: rest =>
    match takeEntries n rest with
    | some (es, rest') => .ok (.posr len c es, rest')
    | none => .error .truncated
  | [] => .error .truncated

/-- A response after its sync bytes: the echo is compared with the request's opcode (rule R96) and the payload read by the
request's kind and count; the length byte is kept and never looked at (rule R73). -/
def decodeResponse (echo : Byte) (n : Nat) (len op : Byte) (payload : List Byte) :
    Except DecodeError (Instr × List Byte) :=
  if op ≠ echo then .error .badEcho
  else if echo = opBattery then decodeBatr len payload
  else if echo = opPosition then decodePosr len n payload
  else .error .noResponse

/-- The decoder: the instruction at the head of the bytes and the bytes after it, or why there is none. The sync bytes are
tested first (rule R96). -/
def decode (key : Key) : List Byte → Except DecodeError (Instr × List Byte)
  | s0 :: s1 :: len :: op :: payload =>
    if s0 ≠ Config.sync ∨ s1 ≠ Config.sync then .error .badSync
    else match key with
      | .command => decodeCommand len op payload
      | .response echo n => decodeResponse echo n len op payload
  | _ => .error .truncated

/-! ### The encoder -/

/-- The entries of a MOVE: id, position low, position high, in list order (rule R63). -/
def moveBody : List Byte → List Half → List Byte
  | i :: ids, p :: ps => i :: lo8 p :: hi8 p :: moveBody ids ps
  | _, _ => []

/-- The groups of a POSR (rule R68). -/
def entryBody : List PosEntry → List Byte
  | [] => []
  | e :: es => e.idEcho :: lo8 e.pos :: hi8 e.pos :: entryBody es

/-- The length byte of a frame: the values of rules R63 to R66 for a command, the byte that was received for a response. -/
def Instr.lengthByte : Instr → Byte
  | .move ids _ _ => toByte (3 * ids.length + 5)
  | .batq => 2
  | .unload ids => toByte (ids.length + 3)
  | .posq ids => toByte (ids.length + 3)
  | .batr len _ => len
  | .posr len _ _ => len

/-- The payload of a frame, index 4 onward (rules R63 to R68). -/
def Instr.payload : Instr → List Byte
  | .move ids ps d => toByte ids.length :: lo8 d :: hi8 d :: moveBody ids ps
  | .batq => []
  | .unload ids => toByte ids.length :: ids
  | .posq ids => toByte ids.length :: ids
  | .batr _ mv => [lo8 mv, hi8 mv]
  | .posr _ c es => c :: entryBody es

/-- The frame of an instruction: sync, sync, length, opcode, payload (rule R60). -/
def encode (i : Instr) : List Byte := Config.sync :: Config.sync :: i.lengthByte :: i.opcode :: i.payload

/-- The key under which a frame is told from the others (rule R77): the direction and, for a response, what the request
fixes. -/
def Instr.key : Instr → Key
  | .move _ _ _ => .command
  | .batq => .command
  | .unload _ => .command
  | .posq _ => .command
  | .batr _ _ => .response opBattery 0
  | .posr _ _ es => .response opPosition es.length

/-- The strict reverse parser of `95_test_vectors.md` Part 4: a whole command frame, nothing after it, whose length byte
is the frame's length less 2. -/
def parseCommand (f : List Byte) : Except DecodeError Instr :=
  match decode .command f with
  | .ok (i, []) => if (f.getD 2 0).toNat + 2 = f.length then .ok i else .error .badLength
  | .ok (_, _ :: _) => .error .badLength
  | .error e => .error e

/-! ### The opcode table (rule R77) -/

/-- A row of `opcode_table.json`: the direction, and match and mask over frame bytes 0 to 3 with byte 0 in bits 31 to 24. -/
structure Row where
  isCommand : Bool
  matchBits : Word
  maskBits : Word
deriving DecidableEq, Repr

/-- The row of an instruction, with the numbers of `opcode_table.json`. -/
def Instr.row : Instr → Row
  | .move _ _ _ => ⟨true, 0x55550003, 0xFFFF00FF⟩
  | .batq => ⟨true, 0x5555020F, 0xFFFFFFFF⟩
  | .unload _ => ⟨true, 0x55550014, 0xFFFF00FF⟩
  | .posq _ => ⟨true, 0x55550015, 0xFFFF00FF⟩
  | .batr _ _ => ⟨false, 0x5555000F, 0xFFFF00FF⟩
  | .posr _ _ _ => ⟨false, 0x55550015, 0xFFFF00FF⟩

/-- Frame bytes 0 to 3 as the table's 32-bit number, byte 0 in bits 31 to 24 (rule R77). -/
def headWord (f : List Byte) : Word := f.getD 0 0 ++ f.getD 1 0 ++ f.getD 2 0 ++ f.getD 3 0

/-- "a frame `f` is of the row's kind when `(head & mask) == match`" (rule R77). -/
def Row.fits (r : Row) (f : List Byte) : Bool := headWord f &&& r.maskBits == r.matchBits

/-! ### A word of the opcode table -/

/-- The four frame bytes of one 32-bit table word, bits 31 to 24 first (rule R77). -/
def wordBytes (w : Nat) : List Byte := [toByte (w / 2 ^ 24), toByte (w / 2 ^ 16), toByte (w / 2 ^ 8), toByte w]

/-- The bytes of table words of `nbits` bits in all, first word lowest, followed by zeros up to the longest frame. -/
def layoutWord (nbits w : Nat) : List Byte :=
  (((List.range ((nbits + 31) / 32)).flatMap fun k => wordBytes (w / 2 ^ (32 * k))).take (nbits / 8)) ++
    List.replicate Config.expMax 0

/-- The instruction that the decoder reads from a word of the opcode table: as a command if it is one, else as a response
to the request that its own opcode and count echo name (log entry 6: POSQ and POSR have one match and one mask, and the
word carries no direction). -/
def decodeTableWord (nbits w : Nat) : Option Instr :=
  let f := layoutWord nbits w
  match decode .command f with
  | .ok (i, _) => some i
  | .error _ =>
    match decode (.response (f.getD 3 0) (f.getD 4 0).toNat) f with
    | .ok (i, _) => some i
    | .error _ => none

end Sys2Proof
end

