-- ==== Sys2Proof/Machine/State.lean ====
section
/-! DEFINITION. The state of the block and of the transport behind it (rules R10 to R33), the inputs that the agents of
rule R7 give it, the state after reset (rule R35), and the reasons a step can stop. -/

namespace Sys2Proof.Machine

/-- PH, the phase register, the block's only program counter (rule R26). -/
inductive Phase where
  | idle
  | flush
  | send
  | poll
  | read
  | check
deriving DecidableEq, Repr

/-- The sub-causes of rule R115, each with the kind of error it belongs to. -/
inductive Cause where
  /-- InvalidArgument: CMD is none of the four opcodes (START). -/
  | badOpcode
  /-- InvalidArgument: NID differs from NPOS (START of a MOVE). -/
  | lengthMismatch
  /-- InvalidArgument: the count is over the legal count of the command (START). -/
  | countRange
  /-- TransportError: the flush read failed (FLUSH). -/
  | flushFail
  /-- TransportError: the flush read was short (FLUSH). -/
  | flushShort
  /-- TransportError: the write failed (SEND). -/
  | writeFail
  /-- TransportError: the response read failed (READ). -/
  | readFail
  /-- Timeout: the sample differs from EXP and PCNT = TMO (POLL). -/
  | pollExpired
  /-- ProtocolError: the response read was short (READ). -/
  | shortRead
  /-- ProtocolError: a sync byte of the response is wrong (CHECK). -/
  | badSync
  /-- ProtocolError: the opcode echo of the response is wrong (CHECK). -/
  | badEcho
deriving DecidableEq, Repr

/-- The read-only registers of rule R10's table. -/
inductive ReadOnly where
  | status
  | err
  | esub
  | rkind
  | vbat
  | rcnt
  | rpos (i : Byte)
deriving DecidableEq, Repr

/-- A host write to one register (rules R11 to R18, R34). An 8-bit register, TMO and CTRL take a value of their width: a
wider one "cannot be presented" (rules R12, R15, `92_eei_decisions.md` D4). DUR and POS take a number of any size, which
the register masks (rules R14, R16). -/
inductive Write where
  | cmd (v : Byte)
  | nid (v : Byte)
  | npos (v : Byte)
  | dur (v : Nat)
  | tmo (v : Word)
  | id (i v : Byte)
  | pos (i : Byte) (v : Nat)
  | ctrl (start : Bool)
  | readOnly (r : ReadOnly)
deriving DecidableEq, Repr

/-- One move of one agent (rule R7), the input of one step. -/
inductive Move where
  /-- The host writes a register; a write of 1 to CTRL.START is the START of rule R91. -/
  | write (w : Write)
  /-- The host reads the register of this number (rule R34). -/
  | read (no : Nat)
  /-- The environment appends bytes to the tail of RXQ (rule R52). -/
  | arrive (bytes : List Byte)
  /-- The engine takes one step, in which the transport answers by this draw if it is asked. -/
  | engine (d : Draw)
  /-- The block is reset (rules R130 to R132). -/
  | reset
deriving DecidableEq, Repr

/-- The machine. The first four groups are the block's registers in the four classes of rule R10, the fifth is the
transport's state that rules name, the last is the model's own. -/
structure State where
  /-- CMD, register 0: the opcode of the command the next START runs (rule R11). -/
  cmd : Byte
  /-- NID, register 1: the number of valid ids (rule R12). -/
  nid : Byte
  /-- NPOS, register 2: the number of valid positions (rule R13). -/
  npos : Byte
  /-- DUR, register 3 (rule R14). -/
  dur : Half
  /-- TMO, register 4: the poll bound (rule R17). -/
  tmo : Word
  /-- ID[0..255], registers 256 + i (rule R15). -/
  ids : Vector Byte 256
  /-- POS[0..255], registers 512 + i (rule R16). -/
  poss : Vector Half 256
  /-- STATUS.BUSY, bit 0 of register 6 (rule R19). -/
  busy : Bool
  /-- STATUS.DONE, bit 1 of register 6 (rule R19). -/
  done : Bool
  /-- ERR, register 7 (rule R20). -/
  err : BitVec 3
  /-- ESUB, register 8 (rule R21). -/
  esub : BitVec 3
  /-- RKIND, register 9 (rule R22). -/
  rkind : BitVec 2
  /-- VBAT, register 10 (rule R23). -/
  vbat : Half
  /-- RCNT, register 11 (rule R24). -/
  rcnt : Byte
  /-- RPOS[0..255], registers 768 + i (rule R25). -/
  rpos : Vector Half 256
  /-- PH (rule R26). -/
  ph : Phase
  /-- TXBUF[0..256] (rule R27). -/
  txbuf : Vector Byte 257
  /-- TXLEN, the number of valid bytes in TXBUF (rule R27). -/
  txlen : BitVec 9
  /-- ECHO, the opcode of the request (rule R28). -/
  echo : Byte
  /-- NLAT, the count of the request (rule R28). -/
  nlat : Byte
  /-- EXP, the expected response length (rule R29). -/
  exp : BitVec 10
  /-- PCNT, the unsuccessful poll samples (rule R30). -/
  pcnt : Word
  /-- RXBUF, what READ read (rule R31). -/
  rxbuf : List Byte
  /-- RXQ, the transport's inbound buffer, head first (rule R32). -/
  rxq : List Byte
  /-- TXLOG, the bytes the transport has accepted since reset (rule R33). -/
  txlog : List Byte
  /-- The model's own: the moves still to come, in the order in which the agents take them (log entry 1). -/
  sched : List Move
  /-- The model's own: how many free draws have been used (log entry 2). -/
  draws : Nat
deriving DecidableEq, Repr

/-- The machine right after reset (rules R35, R130). RXQ and TXBUF are unspecified there (log entry 3). -/
def State.reset : State where
  cmd := 0
  nid := 0
  npos := 0
  dur := 0
  tmo := 0xFFFFFFFF
  ids := Vector.replicate 256 0
  poss := Vector.replicate 256 0
  busy := false
  done := false
  err := 0
  esub := 0
  rkind := 0
  vbat := 0
  rcnt := 0
  rpos := Vector.replicate 256 0
  ph := .idle
  txbuf := Vector.replicate 257 0
  txlen := 0
  echo := 0
  nlat := 0
  exp := 0
  pcnt := 0
  rxbuf := []
  rxq := []
  txlog := []
  sched := []
  draws := 0

/-- Why the machine stops with a fault. None of the errors of rule R110 is one: they end a command and the block goes on. -/
inductive Fault where
  /-- CHECK would read RXBUF beyond the bytes that READ stored. Raised by CHECK and by POSR in a state that rule R57 rules
  out (RXBUF shorter than EXP); no state that keeps `Safety.Inv` raises it. Safe: the machine stops where the spec gives
  no byte. -/
  | rxbufIndex
deriving DecidableEq, Repr

/-- Why an instruction has no meaning. -/
inductive Refusal where
  /-- No meaning has been written for the instruction of this mnemonic. Raised by no arm of `exec`. Safe. -/
  | notModelled (mnemonic : String)
deriving DecidableEq, Repr

end Sys2Proof.Machine
end

