-- ==== Sys2Proof/Machine/Flags.lean ====
section
/-! DEFINITION. The numbers and flag bits that the spec gives to STATUS, ERR, ESUB, RKIND and PH (rules R19 to R22, R26,
R110, R115), the query test of rule R90, and the volts view of rule R105. -/

namespace Sys2Proof.Machine

/-- STATUS as the host reads it: BUSY at bit 0, DONE at bit 1 (rule R19). -/
def State.status (s : State) : BitVec 2 := BitVec.ofBool s.done ++ BitVec.ofBool s.busy

/-- The number of a phase, 0 to 5 (rule R26). -/
def Phase.code : Phase → BitVec 3
  | .idle => 0
  | .flush => 1
  | .send => 2
  | .poll => 3
  | .read => 4
  | .check => 5

/-- The error kinds' codes in ERR (rules R20, R110). -/
abbrev errInvalidArgument : BitVec 3 := 1
abbrev errTransport : BitVec 3 := 2
abbrev errTimeout : BitVec 3 := 3
abbrev errProtocol : BitVec 3 := 4

/-- The kind of a cause, as ERR holds it (rule R115). -/
def Cause.err : Cause → BitVec 3
  | .badOpcode => errInvalidArgument
  | .lengthMismatch => errInvalidArgument
  | .countRange => errInvalidArgument
  | .flushFail => errTransport
  | .flushShort => errTransport
  | .writeFail => errTransport
  | .readFail => errTransport
  | .pollExpired => errTimeout
  | .shortRead => errProtocol
  | .badSync => errProtocol
  | .badEcho => errProtocol

/-- The sub-cause, as ESUB holds it (rule R115). -/
def Cause.esub : Cause → BitVec 3
  | .badOpcode => 1
  | .lengthMismatch => 2
  | .countRange => 3
  | .flushFail => 1
  | .flushShort => 2
  | .writeFail => 3
  | .readFail => 4
  | .pollExpired => 1
  | .shortRead => 1
  | .badSync => 2
  | .badEcho => 3

/-- RKIND's values (rule R22). -/
abbrev kindNone : BitVec 2 := 0
abbrev kindBattery : BitVec 2 := 1
abbrev kindPositions : BitVec 2 := 2

/-- `is_query = (ECHO == 0x0F or ECHO == 0x15)` (rule R90). -/
def isQuery (echo : Byte) : Bool := echo == opBattery || echo == opPosition

/-- The volts view of a voltage, the exact rational millivolts / 1000, formed on the host side (rule R105). -/
def volts (millivolts : Half) : Rat := mkRat millivolts.toNat 1000

end Sys2Proof.Machine
end

