-- ==== Sys2Proof/Machine/Ops.lean ====
section
/-! DEFINITION. The operations that phases and meanings share: raising an error, ending a command, the three transport
primitives, the latching part of START, and the host's reads and writes of registers. -/

namespace Sys2Proof.Machine

/-! ### The result registers -/

/-- RPOS with these positions at index 0 onward and 0 after them (rules R25, R98). -/
def rposOf (positions : List Half) : Vector Half 256 := Vector.ofFn fun i => positions.getD i.val 0

/-- "RKIND <- 0 ; VBAT <- 0 ; RCNT <- 0 ; RPOS[i] <- 0 for all i" (rules R91, R118). -/
def State.clearResult (s : State) : State :=
  { s with rkind := kindNone, vbat := 0, rcnt := 0, rpos := rposOf [] }

/-! ### The two ends of a command -/

/-- `raise Kind(sub)`: the one way an error is taken (rule R118). Nothing is saved, no vector is fetched, and control goes
to PH = IDLE; the next accepted START is the only way on (rule R119). -/
def raise (c : Cause) (s : State) : State :=
  { s.clearResult with err := c.err, esub := c.esub, busy := false, done := true, ph := .idle }

/-- `complete()`, the successful end of a command (rule R99). -/
def complete (s : State) : State := { s with busy := false, done := true, ph := .idle }

/-! ### TXBUF -/

/-- TXBUF after a frame has been written at index 0; the entries behind it keep their bytes (rule R27). -/
def loadFrame (f : List Byte) (buf : Vector Byte 257) : Vector Byte 257 :=
  Vector.ofFn fun i => f.getD i.val buf[i]

/-- `TXBUF[0..TXLEN)`, the frame that SEND hands over (rules R27, R93). -/
def State.txFrame (s : State) : List Byte := s.txbuf.toList.take s.txlen.toNat

/-! ### The transport primitives -/

/-- `TxWrite(b)` (rule R46): whether it was `ok`, and the transport after it. On `fail` an unspecified first part of `b`
has been handed over. -/
def txWrite (b : List Byte) (o : TxOutcome) (s : State) : Bool × State :=
  match o with
  | .ok => (true, { s with txlog := s.txlog ++ b })
  | .fail sent => (false, { s with txlog := s.txlog ++ b.take sent })

/-- `RxLevel()` (rule R47). -/
def rxLevel (s : State) : Nat := s.rxq.length

/-- What an `RxRead` gives back (rule R48). -/
inductive RxResult where
  | ok (b : List Byte)
  | short (b : List Byte)
  | fail
deriving DecidableEq, Repr

/-- `RxRead(n)` (rule R48). `ok` is possible only when RXQ holds `n` bytes; where it does not, the answer `ok` counts as a
short read of all there is. A short read gives fewer than `n` bytes, whatever number the answer names (log entry 4). -/
def rxRead (n : Nat) (o : RxOutcome) (s : State) : RxResult × State :=
  match o with
  | .ok =>
    if n ≤ s.rxq.length then (.ok (s.rxq.take n), { s with rxq := s.rxq.drop n })
    else (.short s.rxq, { s with rxq := [] })
  | .short got =>
    (.short (s.rxq.take (min got (n - 1))), { s with rxq := s.rxq.drop (min got (n - 1)) })
  | .fail lost => (.fail, { s with rxq := s.rxq.drop lost })

/-- The environment appends bytes at the tail of RXQ (rules R32, R52). -/
def State.arrive (b : List Byte) (s : State) : State := { s with rxq := s.rxq ++ b }

/-! ### START -/

/-- The first part of START: the flags and the result of the last command are cleared, the poll counter and RXBUF emptied,
the opcode and the count latched (rule R91). -/
def State.startClear (op n : Byte) (s : State) : State :=
  { s.clearResult with
    done := false, err := 0, esub := 0, pcnt := 0, rxbuf := [], echo := op, nlat := n }

/-- The last part of START, after an encoder rule has passed: the frame is in TXBUF, EXP is set, BUSY is 1 and PH is FLUSH
for a query and SEND otherwise (rules R80, R91). -/
def State.accept (f : List Byte) (expected : Nat) (s : State) : State :=
  { s with
    txbuf := loadFrame f s.txbuf, txlen := BitVec.ofNat 9 f.length, exp := BitVec.ofNat 10 expected, busy := true,
    ph := if isQuery s.echo then .flush else .send }

/-- START of a command with this opcode and count whose encoder rule gives a frame and an expected length, or a cause
(rule R91). A START while BUSY = 1 has no effect (rules R18, R91). -/
def startWith (op n : Byte) (enc : Except Cause (List Byte × Nat)) (s : State) : State :=
  if s.busy then s
  else match enc with
    | .error c => raise c (s.startClear op n)
    | .ok (f, expected) => (s.startClear op n).accept f expected

/-! ### Reset -/

/-- Reset as an event: every register of the block at its reset value, with no error recorded for a command in progress;
RXQ keeps what it holds; TXLOG, the bytes since reset, starts anew (rules R33, R130, R131, R132). -/
def State.resetBlock (s : State) : State :=
  { State.reset with rxq := s.rxq, sched := s.sched, draws := s.draws }

/-! ### The host's registers -/

/-- The value the host reads from a register, by its number in rule R10's table; `none` where the table has no register.
CTRL reads 0 (rule R18). The hidden state has no number. -/
def hostRead (no : Nat) (s : State) : Option Word :=
  match no with
  | 0 => some (s.cmd.setWidth 32)
  | 1 => some (s.nid.setWidth 32)
  | 2 => some (s.npos.setWidth 32)
  | 3 => some (s.dur.setWidth 32)
  | 4 => some s.tmo
  | 5 => some 0
  | 6 => some (s.status.setWidth 32)
  | 7 => some (s.err.setWidth 32)
  | 8 => some (s.esub.setWidth 32)
  | 9 => some (s.rkind.setWidth 32)
  | 10 => some (s.vbat.setWidth 32)
  | 11 => some (s.rcnt.setWidth 32)
  | n =>
    if n < 256 then none
    else if n < 512 then some ((s.ids.toList.getD (n - 256) 0).setWidth 32)
    else if n < 768 then some ((s.poss.toList.getD (n - 512) 0).setWidth 32)
    else if n < 1024 then some ((s.rpos.toList.getD (n - 768) 0).setWidth 32)
    else none

/-- The write that a register number and a value stand for, by rule R10's table; `none` where the table has no register or
where the value "cannot be presented" (rules R12, R15, `92_eei_decisions.md` D4). -/
def Write.ofNumber (no v : Nat) : Option Write :=
  match no with
  | 0 => if v < 2 ^ 8 then some (.cmd (BitVec.ofNat 8 v)) else none
  | 1 => if v < 2 ^ 8 then some (.nid (BitVec.ofNat 8 v)) else none
  | 2 => if v < 2 ^ 8 then some (.npos (BitVec.ofNat 8 v)) else none
  | 3 => some (.dur v)
  | 4 => if v < 2 ^ 32 then some (.tmo (BitVec.ofNat 32 v)) else none
  | 5 => if v < 2 then some (.ctrl (v == 1)) else none
  | 6 => some (.readOnly .status)
  | 7 => some (.readOnly .err)
  | 8 => some (.readOnly .esub)
  | 9 => some (.readOnly .rkind)
  | 10 => some (.readOnly .vbat)
  | 11 => some (.readOnly .rcnt)
  | n =>
    if n < 256 then none
    else if n < 512 then
      if v < 2 ^ 8 then some (.id (BitVec.ofNat 8 (n - 256)) (BitVec.ofNat 8 v)) else none
    else if n < 768 then some (.pos (BitVec.ofNat 8 (n - 512)) v)
    else if n < 1024 then some (.readOnly (.rpos (BitVec.ofNat 8 (n - 768))))
    else none

/-- A host write to an operand register, DUR and POS[i] masked to 16 bits (rules R11 to R17, R86); a write to CTRL or to a
read-only register changes no register by itself (rules R18, R34). -/
def writeRegister (w : Write) (s : State) : State :=
  match w with
  | .cmd v => { s with cmd := v }
  | .nid v => { s with nid := v }
  | .npos v => { s with npos := v }
  | .dur v => { s with dur := mask16 v }
  | .tmo v => { s with tmo := v }
  | .id i v => { s with ids := s.ids.setIfInBounds i.toNat v }
  | .pos i v => { s with poss := s.poss.setIfInBounds i.toNat (mask16 v) }
  | .ctrl _ => s
  | .readOnly _ => s

end Sys2Proof.Machine
end

