-- ==== Sys2Proof/Machine/Operands.lean ====
section
/-! DEFINITION. Where an instruction's operands come from: a command's from the operand registers at START (rules R54, R80,
R91), a response's from RXBUF at CHECK (rule R96). And how they get there: the host writes that a command line stands for
(rule R75), and the placing of one instruction for the next step. -/

namespace Sys2Proof.Machine

/-- `ID[0..n)` (rules R12, R15). -/
def State.idList (s : State) (n : Nat) : List Byte := s.ids.toList.take n

/-- `POS[0..n)` (rules R13, R16). -/
def State.posList (s : State) (n : Nat) : List Half := s.poss.toList.take n

/-- The command that CMD selects, with its operands as the registers hold them; `none` for the 252 values that select no
command (rules R72, R91). -/
def fetchCommand (s : State) : Option Instr :=
  if s.cmd = opMove then some (.move (s.idList s.nid.toNat) (s.posList s.npos.toNat) s.dur)
  else if s.cmd = opBattery then some .batq
  else if s.cmd = opUnload then some (.unload (s.idList s.nid.toNat))
  else if s.cmd = opPosition then some (.posq (s.idList s.nid.toNat))
  else none

/-- The response that RXBUF holds, read by the request's opcode and count (rules R96 to R98). -/
def fetchResponse (s : State) : Except DecodeError (Instr × List Byte) :=
  decode (.response s.echo s.nlat.toNat) s.rxbuf

/-! ### The host steps of a command line -/

/-- `ID[k] <- ids[k]`, from index `k` (rule R75). -/
def idWrites : Nat → List Byte → List Write
  | _, [] => []
  | k, v :: vs => .id (BitVec.ofNat 8 k) v :: idWrites (k + 1) vs

/-- `POS[k] <- pos[k]`, from index `k` (rule R75). -/
def posWrites : Nat → List Half → List Write
  | _, [] => []
  | k, v :: vs => .pos (BitVec.ofNat 8 k) v.toNat :: posWrites (k + 1) vs

/-- The operand writes that a command line is shorthand for, without the START that ends them (rule R75). A response is no
host's line and has none. -/
def operandWrites : Instr → List Write
  | .move ids ps d =>
    [.cmd opMove, .nid (toByte ids.length)] ++ idWrites 0 ids ++ [.npos (toByte ps.length)] ++ posWrites 0 ps ++
      [.dur d.toNat]
  | .batq => [.cmd opBattery]
  | .unload ids => [.cmd opUnload, .nid (toByte ids.length)] ++ idWrites 0 ids
  | .posq ids => [.cmd opPosition, .nid (toByte ids.length)] ++ idWrites 0 ids
  | .batr _ _ => []
  | .posr _ _ _ => []

/-- The operand registers after these writes, in order. -/
def loadOperands (ws : List Write) (s : State) : State := ws.foldl (fun t w => writeRegister w t) s

/-! ### Placing one instruction for the next step -/

/-- A state whose next step is the START of the command in the operand registers. -/
def placeStart (s : State) : State :=
  { s with busy := false, ph := .idle, sched := .write (.ctrl true) :: s.sched }

/-- A state whose next step is the CHECK of a response frame to a request of this opcode and count. -/
def placeResponse (f : List Byte) (echo : Byte) (n expected : Nat) (s : State) : State :=
  { s with
    busy := true, done := false, ph := .check, echo := echo, nlat := toByte n, exp := BitVec.ofNat 10 expected,
    rxbuf := f, sched := .engine Draw.ok :: s.sched }

/-- A state whose next step runs this instruction (log entry 6). -/
def placeInstr (i : Instr) (s : State) : State :=
  match i with
  | .move _ _ _ => placeStart (loadOperands (operandWrites i) s)
  | .batq => placeStart (loadOperands (operandWrites i) s)
  | .unload _ => placeStart (loadOperands (operandWrites i) s)
  | .posq _ => placeStart (loadOperands (operandWrites i) s)
  | .batr _ _ => placeResponse (encode i) opBattery 0 Config.batRlen s
  | .posr _ _ es => placeResponse (encode i) opPosition es.length (3 * es.length + 5) s

/-- A state whose next step is a START with this value of CMD, which need not select a command. -/
def placeOpcode (op : Byte) (s : State) : State := placeStart (writeRegister (.cmd op) s)

end Sys2Proof.Machine
end

