-- ==== Sys2Proof/Machine/Commands.lean ====
section
/-! DEFINITION. The meanings of the four command frames: START of each command (rule R91) with its encoder rule (rules R81
to R84). -/

namespace Sys2Proof.Machine

/-- The encoder rule of MOVE: the length mismatch is tested before the count range (rule R81). -/
def encodeMove (ids : List Byte) (ps : List Half) (d : Half) : Except Cause (List Byte × Nat) :=
  if ids.length ≠ ps.length then .error .lengthMismatch
  else if ids.length > Config.moveMax then .error .countRange
  else .ok (encode (.move ids ps d), 0)

/-- The encoder rule of BATQ: no operand, no check, six bytes expected (rules R71, R82). -/
def encodeBatq : Except Cause (List Byte × Nat) := .ok (encode .batq, Config.batRlen)

/-- The encoder rule of UNLOAD (rule R83). -/
def encodeUnload (ids : List Byte) : Except Cause (List Byte × Nat) :=
  if ids.length > Config.listMax then .error .countRange else .ok (encode (.unload ids), 0)

/-- The encoder rule of POSQ: `3*n + 5` bytes expected (rules R71, R84). -/
def encodePosq (ids : List Byte) : Except Cause (List Byte × Nat) :=
  if ids.length > Config.listMax then .error .countRange else .ok (encode (.posq ids), 3 * ids.length + 5)

/-- MOVE (rules R81, R91). -/
def execMove (ids : List Byte) (ps : List Half) (d : Half) (s : State) : Host.Outcome State Fault Refusal :=
  .next (startWith opMove (toByte ids.length) (encodeMove ids ps d) s)

/-- BATQ (rules R82, R91). It takes no operand; NLAT latches NID all the same. -/
def execBatq (s : State) : Host.Outcome State Fault Refusal := .next (startWith opBattery s.nid encodeBatq s)

/-- UNLOAD (rules R83, R91). -/
def execUnload (ids : List Byte) (s : State) : Host.Outcome State Fault Refusal :=
  .next (startWith opUnload (toByte ids.length) (encodeUnload ids) s)

/-- POSQ (rules R84, R91). -/
def execPosq (ids : List Byte) (s : State) : Host.Outcome State Fault Refusal :=
  .next (startWith opPosition (toByte ids.length) (encodePosq ids) s)

/-- START with a CMD that selects no command: InvalidArgument(BadOpcode), nothing encoded, nothing sent (rules R72, R91). -/
def startBadOpcode (s : State) : State := startWith s.cmd s.nid (.error .badOpcode) s

end Sys2Proof.Machine
end

