-- ==== Sys2Proof/Machine/Responses.lean ====
section
/-! DEFINITION. The meanings of the two response frames: CHECK of a response whose sync bytes are right (rules R96 to R98).
Outside the phase CHECK no response is looked at, so there a response changes nothing (rule R96, "Enabled when"). -/

namespace Sys2Proof.Machine

/-- BATR (rules R96, R97): the echo must be the battery query's; then VBAT and RKIND are written and the command completes.
The length byte is not used (rule R73). -/
def execBatr (_length : Byte) (mv : Half) (s : State) : Host.Outcome State Fault Refusal :=
  if s.ph ≠ .check then .next s
  else if s.echo ≠ opBattery then .next (raise .badEcho s)
  else .next (complete { s with vbat := mv, rkind := kindBattery })

/-- POSR (rules R96, R98): the echo must be the position query's; then RPOS[i] takes the position of group i for i below
NLAT, the count of the request, and RCNT takes NLAT. The length byte, the count echo and the id echoes are not used (rule
R73). A frame with fewer groups than the request has ids does not reach CHECK (rule R57). -/
def execPosr (_length _countEcho : Byte) (entries : List PosEntry) (s : State) : Host.Outcome State Fault Refusal :=
  if s.ph ≠ .check then .next s
  else if s.echo ≠ opPosition then .next (raise .badEcho s)
  else if entries.length < s.nlat.toNat then .fault .rxbufIndex
  else .next (complete { s with
    rpos := rposOf ((entries.take s.nlat.toNat).map PosEntry.pos), rcnt := s.nlat, rkind := kindPositions })

end Sys2Proof.Machine
end

