-- ==== Sys2Proof/Machine/Dispatch.lean ====
section
/-! DEFINITION. One arm per instruction. -/

namespace Sys2Proof.Machine

def exec (i : Instr) (s : State) : Host.Outcome State Fault Refusal :=
  match i with
  | .move ids positions duration => Sys2Proof.Machine.execMove ids positions duration s
  | .batq => Sys2Proof.Machine.execBatq s
  | .unload ids => Sys2Proof.Machine.execUnload ids s
  | .posq ids => Sys2Proof.Machine.execPosq ids s
  | .batr length millivolts => Sys2Proof.Machine.execBatr length millivolts s
  | .posr length countEcho entries => Sys2Proof.Machine.execPosr length countEcho entries s

end Sys2Proof.Machine
end

