-- ==== Sys2Proof/Machine/Sequencer.lean ====
section
/-! DEFINITION. The moves of the three agents (rule R7): the host's register writes and START, the engine's phases FLUSH,
SEND, POLL, READ and CHECK (rules R92 to R96, R103), the environment's arrivals. -/

namespace Sys2Proof.Machine

/-! ### The engine -/

/-- FLUSH: one sample, and one read of that many bytes if it is not 0; the bytes are discarded (rule R92). -/
def engineFlush (o : RxOutcome) (s : State) : State :=
  if rxLevel s = 0 then { s with ph := .send }
  else match rxRead (rxLevel s) o s with
    | (.ok _, t) => { t with ph := .send }
    | (.short _, t) => raise .flushShort t
    | (.fail, t) => raise .flushFail t

/-- SEND: the whole frame in one write; then POLL for a query, the end of the command otherwise (rules R93, R100). -/
def engineSend (o : TxOutcome) (s : State) : State :=
  match txWrite s.txFrame o s with
  | (true, t) => if isQuery t.echo then { t with ph := .poll } else complete t
  | (false, t) => raise .writeFail t

/-- POLL: one sample, tested for equality with EXP (rule R94). -/
def enginePoll (s : State) : State :=
  if rxLevel s = s.exp.toNat then { s with ph := .read }
  else if s.pcnt = s.tmo then raise .pollExpired s
  else { s with pcnt := s.pcnt + 1 }

/-- READ: exactly EXP bytes into RXBUF (rule R95). -/
def engineRead (o : RxOutcome) (s : State) : State :=
  match rxRead s.exp.toNat o s with
  | (.ok b, t) => { t with rxbuf := b, ph := .check }
  | (.short _, t) => raise .shortRead t
  | (.fail, t) => raise .readFail t

/-- CHECK: the sync bytes, then the echo, then the decode of the response that RXBUF holds, in one step (rule R96). Where
ECHO is of no query, which no command in progress has, the pseudocode decodes nothing and completes. -/
def engineCheck (s : State) : Host.Outcome State Fault Refusal :=
  match fetchResponse s with
  | .ok (i, _) => exec i s
  | .error .badSync => .next (raise .badSync s)
  | .error .badEcho => .next (raise .badEcho s)
  | .error .noResponse => .next (complete s)
  | .error .truncated => .fault .rxbufIndex
  | .error .badOpcode => .fault .rxbufIndex
  | .error .badLength => .fault .rxbufIndex
  | .error .countRange => .fault .rxbufIndex

/-- One engine step under a draw (rule R103). In IDLE the engine has no step: the block waits for START (rule R130). -/
def engineStep (d : Draw) (s : State) : Host.Outcome State Fault Refusal :=
  match s.ph with
  | .idle => .next s
  | .flush => .next (engineFlush d.rx s)
  | .send => .next (engineSend d.tx s)
  | .poll => .next (enginePoll s)
  | .read => .next (engineRead d.rx s)
  | .check => engineCheck s

/-- An engine step that no scheduled move asks for: the draw is the next free one (log entry 2). -/
def engineAlone (s : State) : Host.Outcome State Fault Refusal :=
  if s.ph = .idle then .next s
  else engineStep (Config.freeDraw s.draws) { s with draws := s.draws + 1 }

/-! ### The host -/

/-- START (rule R91): the command that CMD selects is run with the operands as the registers hold them. That it has no
effect while BUSY = 1 (rule R18) is part of `startWith`. -/
def hostStart (s : State) : Host.Outcome State Fault Refusal :=
  match fetchCommand s with
  | some i => exec i s
  | none => .next (startBadOpcode s)

/-- A host write (rules R18, R34): without effect while BUSY = 1; a 1 in CTRL.START starts the command, a 0 does nothing. -/
def hostWrite (w : Write) (s : State) : Host.Outcome State Fault Refusal :=
  if s.busy then .next s
  else match w with
    | .ctrl true => hostStart s
    | .ctrl false => .next s
    | .cmd _ => .next (writeRegister w s)
    | .nid _ => .next (writeRegister w s)
    | .npos _ => .next (writeRegister w s)
    | .dur _ => .next (writeRegister w s)
    | .tmo _ => .next (writeRegister w s)
    | .id _ _ => .next (writeRegister w s)
    | .pos _ _ => .next (writeRegister w s)
    | .readOnly _ => .next (writeRegister w s)

/-! ### One move -/

/-- What one move of one agent does (rule R7). A host read has no side effect (rule R34): its value is `hostRead`. -/
def moveStep (m : Move) (s : State) : Host.Outcome State Fault Refusal :=
  match m with
  | .write w => hostWrite w s
  | .read _ => .next s
  | .arrive b => .next (s.arrive b)
  | .engine d => engineStep d s
  | .reset => .next s.resetBlock

end Sys2Proof.Machine
end

