-- ==== Sys2Proof/Machine/Step.lean ====
section
/-! DEFINITION. One step of the machine, and the placing of one instruction where the next step takes it. -/

namespace Sys2Proof.Machine

/-- One step: the first scheduled move is taken (rules R6, R7); where none is scheduled the engine goes on by itself, and in
IDLE the block waits. -/
def step (s : State) : Host.Outcome State Fault Refusal :=
  match s.sched with
  | [] => engineAlone s
  | m :: ms => moveStep m { s with sched := ms }

/-- The state in which the very next step runs the instruction of a word of the opcode table (log entry 6): a command stands
in the operand registers with its START scheduled, a response stands in RXBUF with the CHECK of its query scheduled. A
word that is no instruction is started as the opcode in its byte 3, and so ends in BadOpcode or by the command that CMD
selects. -/
def State.withFetchWord (s : State) (nbits w : Nat) : State :=
  match decodeTableWord nbits w with
  | some i => placeInstr i s
  | none => placeOpcode ((layoutWord nbits w).getD 3 0) s

end Sys2Proof.Machine
end

