-- ==== Sys2Proof/Safety.lean ====
section
/-! DEFINITION. What a state that the block can reach looks like (`Inv`, from rules R19 to R31, R48, R57, R87, R115), the
engine steps of one command with the arrivals between them (`engineRun`, rules R52, R104), and how many of them a command
still needs (`stepsLeft`); and the frames and outcomes in whose terms the statements speak. -/

namespace Sys2Proof.Machine

/-- The pairs `(ERR, ESUB)` of rule R115; "Every other pair never occurs". -/
def legalErr (e sub : BitVec 3) : Bool :=
  match e.toNat with
  | 0 => sub == 0
  | 1 => 1 ≤ sub.toNat && sub.toNat ≤ 3
  | 2 => 1 ≤ sub.toNat && sub.toNat ≤ 4
  | 3 => sub == 1
  | 4 => 1 ≤ sub.toNat && sub.toNat ≤ 3
  | _ => false

/-- EXP as a function of the request (rule R71): 6 for BATQ, 3n + 5 for POSQ, 0 for MOVE and UNLOAD. -/
def expectedLength (echo : Byte) (n : Nat) : Nat :=
  if echo = opBattery then 6 else if echo = opPosition then 3 * n + 5 else 0

/-- The largest legal count of a command (rule R70); BATQ ignores its count. -/
def countLimit (op : Byte) : Nat := if op = opMove then 83 else if op = opBattery then 255 else 252

/-- The whole length of a command frame (rules R63 to R66). -/
def frameLength (op : Byte) (n : Nat) : Nat :=
  if op = opMove then 3 * n + 7 else if op = opBattery then 4 else n + 5

/-- What the rules say of every state the block is in, whatever the host and the environment do. -/
structure Inv (s : State) : Prop where
  /-- "PH = IDLE exactly when STATUS.BUSY = 0" (rule R26). -/
  idle_iff : s.ph = .idle ↔ s.busy = false
  /-- "BUSY=1, DONE=1 never occurs" (rule R19). -/
  busy_not_done : s.busy = true → s.done = false
  /-- Only the pairs of rule R115 occur. -/
  err_legal : legalErr s.err s.esub = true
  /-- "ERR != 0 implies RKIND = 0" (rule R22). -/
  err_no_result : s.err ≠ 0 → s.rkind = 0
  /-- An error or a result stands only after a command has ended (rules R20, R22, R34). -/
  err_done : s.err ≠ 0 → s.done = true
  result_done : s.rkind ≠ 0 → s.done = true
  /-- "3 never occurs" in RKIND (rule R22). -/
  rkind_legal : s.rkind ≠ 3
  /-- VBAT is 0 where RKIND is not 1, RCNT is 0 where RKIND is not 2 (rules R23, R24). -/
  vbat_tag : s.rkind ≠ 1 → s.vbat = 0
  rcnt_tag : s.rkind ≠ 2 → s.rcnt = 0
  /-- "Entries with i >= RCNT are 0" (rule R25). -/
  rpos_tail : ∀ (i : Nat) (h : i < 256), s.rcnt.toNat ≤ i → s.rpos[i] = 0
  /-- RXBUF holds at most EXP_MAX bytes (rule R31). -/
  rxbuf_max : s.rxbuf.length ≤ 761
  /-- While a command is in progress: ECHO is one of the four opcodes and NLAT a legal count (rules R70, R72). -/
  busy_opcode : s.busy = true → s.echo = 0x03 ∨ s.echo = 0x0F ∨ s.echo = 0x14 ∨ s.echo = 0x15
  busy_count : s.busy = true → s.nlat.toNat ≤ countLimit s.echo
  /-- EXP and TXLEN are those of the command (rules R63 to R66, R71). -/
  busy_exp : s.busy = true → s.exp.toNat = expectedLength s.echo s.nlat.toNat
  busy_txlen : s.busy = true → s.txlen.toNat = frameLength s.echo s.nlat.toNat
  /-- TXBUF begins with the sync bytes, the frame's length less 2 and the opcode (rules R60, R87). -/
  busy_header : s.busy = true → s.txFrame.take 4 = [0x55, 0x55, BitVec.ofNat 8 (s.txlen.toNat - 2), s.echo]
  /-- Only a query is in FLUSH, POLL, READ or CHECK (rules R90, R103). -/
  query_phase : s.ph = .flush ∨ s.ph = .poll ∨ s.ph = .read ∨ s.ph = .check → isQuery s.echo = true
  /-- "the first sample is made with PCNT = 0" (rule R94) and PCNT never exceeds TMO during a command (rule R30). -/
  pcnt_start : s.ph = .flush ∨ s.ph = .send → s.pcnt = 0
  pcnt_bound : s.busy = true → s.pcnt.toNat ≤ s.tmo.toNat
  /-- `len(RXQ) >= n` holds when READ calls `RxRead(n)` (rule R48). -/
  read_level : s.ph = .read → s.exp.toNat ≤ s.rxq.length
  /-- CHECK finds EXP bytes in RXBUF (rules R57, R95). -/
  check_length : s.ph = .check → s.rxbuf.length = s.exp.toNat

/-! ### What a step leaves alone, in the terms of the frame statements -/

/-- The operand registers, which the host owns, are the same (rules R10 (a), R34). -/
structure SameOperands (s t : State) : Prop where
  cmd : t.cmd = s.cmd
  nid : t.nid = s.nid
  npos : t.npos = s.npos
  dur : t.dur = s.dur
  tmo : t.tmo = s.tmo
  ids : t.ids = s.ids
  poss : t.poss = s.poss

/-- What an accepted START latched is the same (rule R54), with the poll counter and RXBUF. -/
structure SameLatches (s t : State) : Prop where
  txbuf : t.txbuf = s.txbuf
  txlen : t.txlen = s.txlen
  echo : t.echo = s.echo
  nlat : t.nlat = s.nlat
  exp : t.exp = s.exp
  pcnt : t.pcnt = s.pcnt
  rxbuf : t.rxbuf = s.rxbuf

/-- Nothing was sent and nothing was read: both streams are the same (rule R40 (c), (d)). -/
structure SameStreams (s t : State) : Prop where
  rxq : t.rxq = s.rxq
  txlog : t.txlog = s.txlog

/-- The inputs still to come are the same. -/
structure SameInputs (s t : State) : Prop where
  sched : t.sched = s.sched
  draws : t.draws = s.draws

/-- Nothing that the host, the transport or the environment can see tells the two states apart: they differ at most in PH and
in the hidden registers (rule R10 (d)), of which rule R36 calls what a command leaves behind "leftovers". -/
structure SameToTheOutside (s t : State) : Prop where
  operands : SameOperands s t
  busy : t.busy = s.busy
  done : t.done = s.done
  err : t.err = s.err
  esub : t.esub = s.esub
  rkind : t.rkind = s.rkind
  vbat : t.vbat = s.vbat
  rcnt : t.rcnt = s.rcnt
  rpos : t.rpos = s.rpos
  streams : SameStreams s t
  inputs : SameInputs s t

/-- No result stands: "RKIND = 0, VBAT = 0, RCNT = 0 and all RPOS[i] = 0" (rule R102). -/
structure NoResult (t : State) : Prop where
  rkind : t.rkind = 0
  vbat : t.vbat = 0
  rcnt : t.rcnt = 0
  rpos : ∀ (i : Nat) (h : i < 256), t.rpos[i] = 0

/-- A command is in progress that START has just accepted with this opcode and count (rule R91): no error, no result, an
empty RXBUF, and nothing written that START does not write. -/
structure Started (op n : Byte) (s t : State) : Prop where
  busy : t.busy = true
  done : t.done = false
  err : t.err = 0
  esub : t.esub = 0
  result : NoResult t
  echo : t.echo = op
  nlat : t.nlat = n
  pcnt : t.pcnt = 0
  rxbuf : t.rxbuf = []
  operands : SameOperands s t
  streams : SameStreams s t
  inputs : SameInputs s t

/-- The command has ended with the error pair `(e, sub)` of rule R115 and as rule R118 says: no result, BUSY 0, DONE 1, PH
IDLE, the operand registers and the inputs still to come untouched. -/
structure EndedWith (e sub : BitVec 3) (s t : State) : Prop where
  err : t.err = e
  esub : t.esub = sub
  result : NoResult t
  busy : t.busy = false
  done : t.done = true
  ph : t.ph = .idle
  operands : SameOperands s t
  inputs : SameInputs s t

/-- The command has ended well (rule R99): BUSY 0, DONE 1, PH IDLE, ERR and ESUB as they were, the operand registers, what
START latched and the inputs still to come untouched. -/
structure Completed (s t : State) : Prop where
  busy : t.busy = false
  done : t.done = true
  ph : t.ph = .idle
  err : t.err = s.err
  esub : t.esub = s.esub
  operands : SameOperands s t
  latches : SameLatches s t
  inputs : SameInputs s t

/-! ### Runs of one command -/

/-- How many engine steps a command in progress needs at most to its end (rule R104). -/
def stepsLeft (s : State) : Nat :=
  match s.ph with
  | .idle => 0
  | .check => 1
  | .read => 2
  | .poll => s.tmo.toNat - s.pcnt.toNat + 3
  | .send => if isQuery s.echo then s.tmo.toNat + 4 else 1
  | .flush => s.tmo.toNat + 5

/-- Engine steps one after the other, each under its own draw and each after the bytes that arrive before it (rule R52). -/
def engineRun : List (List Byte × Draw) → State → Host.Outcome State Fault Refusal
  | [], s => .next s
  | (b, d) :: rest, s =>
    match engineStep d (s.arrive b) with
    | .next t => engineRun rest t
    | .fault r => .fault r
    | .refused r => .refused r

end Sys2Proof.Machine
end

