-- ==== Sys2Proof/Certificates/Slice0/Obligations.lean ====
section
/-! DEFINITION. The statements of this row. Each docstring names the rule of spec/ that the statement formalises. -/

open Sys2Proof Sys2Proof.Machine

/-! ### Reset, reading and writing registers -/

/-- Rule R35 (and R130): the registers after reset. The rule leaves RXQ and TXBUF open, and so does the statement. -/
def Obligations.ResetLeavesTheStatedValues : Prop :=
  (State.reset.cmd = 0 ∧ State.reset.nid = 0 ∧ State.reset.npos = 0 ∧ State.reset.dur = 0 ∧
    State.reset.tmo.toNat = 2 ^ 32 - 1 ∧ hostRead 5 State.reset = some 0) ∧
  (∀ (i : Nat) (h : i < 256), State.reset.ids[i] = 0 ∧ State.reset.poss[i] = 0 ∧ State.reset.rpos[i] = 0) ∧
  (State.reset.busy = false ∧ State.reset.done = false ∧ State.reset.err = 0 ∧ State.reset.esub = 0 ∧
    State.reset.rkind = 0 ∧ State.reset.vbat = 0 ∧ State.reset.rcnt = 0 ∧ State.reset.ph = .idle) ∧
  (State.reset.txlen = 0 ∧ State.reset.echo = 0 ∧ State.reset.nlat = 0 ∧ State.reset.exp = 0 ∧ State.reset.pcnt = 0 ∧
    State.reset.rxbuf = [] ∧ State.reset.txlog = [])

/-- Rule R130: in IDLE the block waits for a START; on its own it sends nothing, reads nothing and changes nothing. That its
own steps are those of an empty `sched` and the scheduled engine steps is the model's choice (log entry 1). -/
def Obligations.IdleBlockWaits : Prop :=
  ∀ s : State, s.ph = .idle →
    (s.sched = [] → step s = .next s) ∧ ∀ d ms, s.sched = .engine d :: ms → step s = .next { s with sched := ms }

/-- Rules R14, R16 (with R11, R12, R13, R15, R17): a host write while BUSY = 0 stores the value in its register, DUR and
POS[i] modulo 65536, and changes nothing else. -/
def Obligations.HostWriteStoresAndMasks : Prop :=
  ∀ (s : State) (ms : List Move), s.busy = false →
    (∀ v : Nat, s.sched = .write (.dur v) :: ms →
      ∃ t, step s = .next t ∧ t.dur.toNat = v % 65536 ∧ t = { s with sched := ms, dur := t.dur }) ∧
    (∀ (i : Byte) (v : Nat), s.sched = .write (.pos i v) :: ms →
      ∃ t, step s = .next t ∧
        (∀ (k : Nat) (h : k < 256), t.poss[k].toNat = if k = i.toNat then v % 65536 else s.poss[k].toNat) ∧
        t = { s with sched := ms, poss := t.poss }) ∧
    (∀ i v : Byte, s.sched = .write (.id i v) :: ms →
      ∃ t, step s = .next t ∧ (∀ (k : Nat) (h : k < 256), t.ids[k] = if k = i.toNat then v else s.ids[k]) ∧
        t = { s with sched := ms, ids := t.ids }) ∧
    (∀ v : Byte, s.sched = .write (.cmd v) :: ms → step s = .next { s with sched := ms, cmd := v }) ∧
    (∀ v : Byte, s.sched = .write (.nid v) :: ms → step s = .next { s with sched := ms, nid := v }) ∧
    (∀ v : Byte, s.sched = .write (.npos v) :: ms → step s = .next { s with sched := ms, npos := v }) ∧
    (∀ v : Word, s.sched = .write (.tmo v) :: ms → step s = .next { s with sched := ms, tmo := v })

/-- Rule R10's table: a value written to a register by number is read back under that number, modulo the register's width
where the register masks, and no other number reads differently. -/
def Obligations.RegisterReadsBackWhatWasWritten : Prop :=
  ∀ (no v : Nat) (w : Write) (s : State) (ms : List Move),
    Write.ofNumber no v = some w → s.busy = false → s.sched = .write w :: ms →
    (no ≤ 4 ∨ 256 ≤ no ∧ no < 768) →
    ∃ t, step s = .next t ∧
      hostRead no t = some (BitVec.ofNat 32 (if no = 3 ∨ 512 ≤ no then v % 65536 else v)) ∧
      ∀ no' : Nat, no' ≠ no → hostRead no' t = hostRead no' s

/-- Rules R18, R34: a host read changes nothing; a write while BUSY = 1, a 0 written to CTRL and a write to a read-only
register change nothing; CTRL reads 0; a START while BUSY = 1 has no effect. -/
def Obligations.HostAccessWithoutEffect : Prop :=
  ∀ (s : State) (ms : List Move),
    (∀ no : Nat, s.sched = .read no :: ms → step s = .next { s with sched := ms }) ∧
    (∀ w : Write, s.sched = .write w :: ms → s.busy = true → step s = .next { s with sched := ms }) ∧
    (s.sched = .write (.ctrl false) :: ms → step s = .next { s with sched := ms }) ∧
    (∀ r : ReadOnly, s.sched = .write (.readOnly r) :: ms → step s = .next { s with sched := ms }) ∧
    hostRead 5 s = some 0 ∧
    (s.busy = true → ∀ i : Instr, i.key = .command → exec i s = .next s)

/-- Rule R19: STATUS reads BUSY at bit 0 and DONE at bit 1. -/
def Obligations.StatusReadsBusyAndDone : Prop :=
  ∀ s : State, hostRead 6 s = some (BitVec.ofNat 32 ((if s.busy then 1 else 0) + 2 * (if s.done then 1 else 0)))

/-- Rule R10's table, with the registers of rules R11 to R17 and R20 to R25: under each number the host reads the register of
that number, each entry of an array under its own, and a number that the table does not have is no register. STATUS is
`StatusReadsBusyAndDone`, CTRL is in `HostAccessWithoutEffect`. -/
def Obligations.HostReadsTheRegisterTable : Prop :=
  ∀ s : State,
    ((hostRead 0 s).map BitVec.toNat = some s.cmd.toNat ∧ (hostRead 1 s).map BitVec.toNat = some s.nid.toNat ∧
      (hostRead 2 s).map BitVec.toNat = some s.npos.toNat ∧ (hostRead 3 s).map BitVec.toNat = some s.dur.toNat ∧
      (hostRead 4 s).map BitVec.toNat = some s.tmo.toNat) ∧
    ((hostRead 7 s).map BitVec.toNat = some s.err.toNat ∧ (hostRead 8 s).map BitVec.toNat = some s.esub.toNat) ∧
    ((hostRead 9 s).map BitVec.toNat = some s.rkind.toNat ∧ (hostRead 10 s).map BitVec.toNat = some s.vbat.toNat ∧
      (hostRead 11 s).map BitVec.toNat = some s.rcnt.toNat) ∧
    (∀ (i : Nat) (h : i < 256), (hostRead (256 + i) s).map BitVec.toNat = some s.ids[i].toNat ∧
      (hostRead (512 + i) s).map BitVec.toNat = some s.poss[i].toNat ∧
      (hostRead (768 + i) s).map BitVec.toNat = some s.rpos[i].toNat) ∧
    ∀ no : Nat, 12 ≤ no ∧ no < 256 ∨ 1024 ≤ no → hostRead no s = none

/-- Rule R10's table for writes: the number selects the register, with every value that can be presented to it; a number that
the table does not have, and a value too wide for an 8-bit register, for TMO or for CTRL, is no write. That the last is no
write at all is the model's reading of rules R12 and R15 and of D4 (log entry 12). -/
def Obligations.RegisterNumbersSelectTheirWrites : Prop :=
  (∀ v : Nat, v < 256 →
    Write.ofNumber 0 v = some (.cmd (BitVec.ofNat 8 v)) ∧ Write.ofNumber 1 v = some (.nid (BitVec.ofNat 8 v)) ∧
    Write.ofNumber 2 v = some (.npos (BitVec.ofNat 8 v)) ∧
    ∀ i : Nat, i < 256 → Write.ofNumber (256 + i) v = some (.id (BitVec.ofNat 8 i) (BitVec.ofNat 8 v))) ∧
  (∀ v : Nat, Write.ofNumber 3 v = some (.dur v) ∧
    ∀ i : Nat, i < 256 → Write.ofNumber (512 + i) v = some (.pos (BitVec.ofNat 8 i) v)) ∧
  (∀ v : Nat, v < 2 ^ 32 → Write.ofNumber 4 v = some (.tmo (BitVec.ofNat 32 v))) ∧
  (Write.ofNumber 5 0 = some (.ctrl false) ∧ Write.ofNumber 5 1 = some (.ctrl true)) ∧
  (∀ v : Nat, Write.ofNumber 6 v = some (.readOnly .status) ∧ Write.ofNumber 7 v = some (.readOnly .err) ∧
    Write.ofNumber 8 v = some (.readOnly .esub) ∧ Write.ofNumber 9 v = some (.readOnly .rkind) ∧
    Write.ofNumber 10 v = some (.readOnly .vbat) ∧ Write.ofNumber 11 v = some (.readOnly .rcnt) ∧
    ∀ i : Nat, i < 256 → Write.ofNumber (768 + i) v = some (.readOnly (.rpos (BitVec.ofNat 8 i)))) ∧
  (∀ no v : Nat, 12 ≤ no ∧ no < 256 ∨ 1024 ≤ no → Write.ofNumber no v = none) ∧
  (∀ no v : Nat, no ≤ 2 ∨ 256 ≤ no ∧ no < 512 → 256 ≤ v → Write.ofNumber no v = none) ∧
  (∀ v : Nat, 2 ^ 32 ≤ v → Write.ofNumber 4 v = none) ∧ ∀ v : Nat, 2 ≤ v → Write.ofNumber 5 v = none

/-- Rules R34, D25: the operand registers belong to the host. A step that is no host write and no reset leaves them all. -/
def Obligations.EngineNeverWritesOperands : Prop :=
  ∀ s t : State, (∀ w ms, s.sched ≠ .write w :: ms) → (∀ ms, s.sched ≠ .reset :: ms) → step s = .next t →
    SameOperands s t

/-- Rules R130, R131, R132: a reset puts the registers at their reset values with no error recorded, whatever was in
progress, and leaves the inbound buffer. The model's choice is reset as an event (log entry 7), and that TXBUF, whose
contents rule R35 leaves unspecified, is all zeros after it (log entries 3 and 7), which `SameLatches State.reset` includes. -/
def Obligations.ResetEventKeepsTheInboundBuffer : Prop :=
  ∀ (s : State) (ms : List Move), s.sched = .reset :: ms →
    ∃ t, step s = .next t ∧ t.rxq = s.rxq ∧ t.sched = ms ∧ t.busy = false ∧ t.done = false ∧ t.err = 0 ∧ t.esub = 0 ∧
      NoResult t ∧ t.ph = .idle ∧ SameOperands State.reset t ∧ SameLatches State.reset t

/-! ### Frames: encoding and decoding -/

/-- Rule R69: a 16-bit value is split low byte and high byte, joined as `lo + 256*hi`, and each undoes the other. -/
def Obligations.HalvesSplitLittleEndian : Prop :=
  (∀ v : Half, (lo8 v).toNat = v.toNat % 256 ∧ (hi8 v).toNat = v.toNat / 256 ∧ le16 (lo8 v) (hi8 v) = v) ∧
    ∀ lo hi : Byte, (le16 lo hi).toNat = lo.toNat + 256 * hi.toNat

/-- The byte-exact examples S1 to S5 of `95_test_vectors.md` decode to the instruction they stand for. -/
def Obligations.SourceFramesDecode : Prop :=
  decode .command [0x55, 0x55, 0x08, 0x03, 0x01, 0xE8, 0x03, 0x05, 0xF4, 0x01] = .ok (.move [5] [500] 1000, []) ∧
  decode .command [0x55, 0x55, 0x02, 0x0F] = .ok (.batq, []) ∧
  decode .command [0x55, 0x55, 0x06, 0x14, 0x03, 0x01, 0x02, 0x03] = .ok (.unload [1, 2, 3], []) ∧
  decode .command [0x55, 0x55, 0x05, 0x15, 0x02, 0x01, 0x02] = .ok (.posq [1, 2], []) ∧
  decode (.response 0x0F 0) [0x55, 0x55, 0x04, 0x0F, 0xD0, 0x07] = .ok (.batr 4 2000, []) ∧
  decode (.response 0x15 2) [0x55, 0x55, 0x0B, 0x15, 0x02, 0x01, 0xE8, 0x03, 0x02, 0xF4, 0x01] =
    .ok (.posr 0x0B 2 [⟨1, 1000⟩, ⟨2, 500⟩], [])

/-- Every well-formed instruction, with every operand at every value, is what its frame decodes to, whatever bytes follow the
frame: no bit of a frame is dropped (rules R63 to R68, R88). -/
def Obligations.DecodeUndoesEncode : Prop :=
  ∀ (i : Instr) (rest : List Byte), i.wf = true → decode i.key (encode i ++ rest) = .ok (i, rest)

/-- Rule R88 and the strict reverse parser: it reads back every accepted command, a command's length byte is its frame's
length less 2, and every frame it accepts is the frame of the well-formed command it answers. -/
def Obligations.ReverseParserIsExact : Prop :=
  (∀ i : Instr, i.wf = true → i.key = .command →
    parseCommand (encode i) = .ok i ∧ i.lengthByte.toNat + 2 = (encode i).length) ∧
  ∀ (f : List Byte) (i : Instr), parseCommand f = .ok i → i.wf = true ∧ i.key = .command ∧ encode i = f

/-- Rules R73, R74: a response that decodes is, byte for byte, the frame of its instruction followed by the bytes after it;
its opcode is the request's and its number of groups the request's count; its length byte may be anything. -/
def Obligations.ResponseDecodesToItsOwnBytes : Prop :=
  ∀ (echo : Byte) (n : Nat) (f rest : List Byte) (i : Instr), decode (.response echo n) f = .ok (i, rest) →
    f = encode i ++ rest ∧ i.opcode = echo ∧ i.row.isCommand = false ∧
      (echo = 0x15 → i.count = n ∧ f.length = 3 * n + 5 + rest.length) ∧
      (echo = 0x0F → f.length = 6 + rest.length)

/-- Rule R77: what decodes in a direction is of the kind of its row, and within one direction no frame is of two kinds. -/
def Obligations.OpcodeTableRowsAgree : Prop :=
  (∀ (key : Key) (f rest : List Byte) (i : Instr), decode key f = .ok (i, rest) →
    i.row.fits f = true ∧ (i.row.isCommand = true ↔ key = .command)) ∧
  ∀ (i j : Instr) (f : List Byte), i.row.fits f = true → j.row.fits f = true → i.row.isCommand = j.row.isCommand →
    i.row = j.row

/-! ### The four commands -/

/-- Rules R63, R81: MOVE. With as many positions as ids and at most 83 of them the command starts, and TXBUF holds the
layout of rule R63 byte by byte; different counts are LengthMismatch, tested first; equal counts over 83 are CountRange. -/
def Obligations.MoveEncodesItsFrame : Prop :=
  ∀ (ids : List Byte) (ps : List Half) (d : Half) (s : State), s.busy = false →
    (∀ (h : ids.length = ps.length), ids.length ≤ 83 →
      ∃ t, exec (.move ids ps d) s = .next t ∧ Started 0x03 (BitVec.ofNat 8 ids.length) s t ∧ t.ph = .send ∧
        t.exp = 0 ∧ t.txlen.toNat = 3 * ids.length + 7 ∧ t.txFrame.length = 3 * ids.length + 7 ∧
        t.txFrame.take 7 = [0x55, 0x55, BitVec.ofNat 8 (3 * ids.length + 5), 0x03, BitVec.ofNat 8 ids.length,
          lo8 d, hi8 d] ∧
        ∀ (k : Nat) (hk : k < ids.length), t.txFrame[7 + 3 * k]? = some ids[k] ∧
          t.txFrame[8 + 3 * k]? = some (lo8 (ps[k]'(h ▸ hk))) ∧ t.txFrame[9 + 3 * k]? = some (hi8 (ps[k]'(h ▸ hk)))) ∧
    (ids.length ≠ ps.length →
      ∃ t, exec (.move ids ps d) s = .next t ∧ EndedWith 1 2 s t ∧ SameStreams s t ∧ t.txbuf = s.txbuf ∧
        t.txlen = s.txlen ∧ t.exp = s.exp) ∧
    (ids.length = ps.length → 83 < ids.length →
      ∃ t, exec (.move ids ps d) s = .next t ∧ EndedWith 1 3 s t ∧ SameStreams s t ∧ t.txbuf = s.txbuf ∧
        t.txlen = s.txlen ∧ t.exp = s.exp)

/-- Rules R64, R82: BATQ. It always starts when BUSY = 0, whatever the operand registers hold; its frame is `55 55 02 0F` and
six bytes are expected. -/
def Obligations.BatqEncodesItsFrame : Prop :=
  ∀ s : State, s.busy = false →
    ∃ t, exec .batq s = .next t ∧ Started 0x0F s.nid s t ∧ t.ph = .flush ∧ t.exp = 6 ∧ t.txlen = 4 ∧
      t.txFrame = [0x55, 0x55, 0x02, 0x0F]

/-- Rules R65, R83: UNLOAD. Up to 252 ids it starts with the layout of rule R65; over 252 it is CountRange. -/
def Obligations.UnloadEncodesItsFrame : Prop :=
  ∀ (ids : List Byte) (s : State), s.busy = false →
    (ids.length ≤ 252 →
      ∃ t, exec (.unload ids) s = .next t ∧ Started 0x14 (BitVec.ofNat 8 ids.length) s t ∧ t.ph = .send ∧ t.exp = 0 ∧
        t.txlen.toNat = ids.length + 5 ∧
        t.txFrame = [0x55, 0x55, BitVec.ofNat 8 (ids.length + 3), 0x14, BitVec.ofNat 8 ids.length] ++ ids) ∧
    (252 < ids.length →
      ∃ t, exec (.unload ids) s = .next t ∧ EndedWith 1 3 s t ∧ SameStreams s t ∧ t.txbuf = s.txbuf ∧
        t.txlen = s.txlen ∧ t.exp = s.exp)

/-- Rules R66, R71, R84: POSQ. Up to 252 ids it starts with the layout of rule R66 and expects `3*n + 5` bytes; over 252 it is
CountRange. -/
def Obligations.PosqEncodesItsFrame : Prop :=
  ∀ (ids : List Byte) (s : State), s.busy = false →
    (ids.length ≤ 252 →
      ∃ t, exec (.posq ids) s = .next t ∧ Started 0x15 (BitVec.ofNat 8 ids.length) s t ∧ t.ph = .flush ∧
        t.exp.toNat = 3 * ids.length + 5 ∧ t.txlen.toNat = ids.length + 5 ∧
        t.txFrame = [0x55, 0x55, BitVec.ofNat 8 (ids.length + 3), 0x15, BitVec.ofNat 8 ids.length] ++ ids) ∧
    (252 < ids.length →
      ∃ t, exec (.posq ids) s = .next t ∧ EndedWith 1 3 s t ∧ SameStreams s t ∧ t.txbuf = s.txbuf ∧
        t.txlen = s.txlen ∧ t.exp = s.exp)

/-- Rule R72: a START with any other CMD is BadOpcode; nothing is encoded and neither stream is touched. -/
def Obligations.IllegalOpcodeIsRefusedAtStart : Prop :=
  ∀ (s : State) (ms : List Move), s.sched = .write (.ctrl true) :: ms → s.busy = false →
    s.cmd ≠ 0x03 → s.cmd ≠ 0x0F → s.cmd ≠ 0x14 → s.cmd ≠ 0x15 →
    ∃ t, step s = .next t ∧ EndedWith 1 1 { s with sched := ms } t ∧ SameStreams s t ∧ t.txbuf = s.txbuf ∧
      t.txlen = s.txlen ∧ t.exp = s.exp

/-- Rule R91, with the order of checks of rule R116: START clears the flags and the result, latches CMD and NID, and then
either ends with the first check that fails, BadOpcode, LengthMismatch, CountRange, or, where none fails, leaves the frame
of the command in TXBUF and the sequencer in FLUSH or SEND. -/
def Obligations.StartChecksThenEncodes : Prop :=
  ∀ s : State, s.busy = false →
    ∃ t, hostStart s = .next t ∧ t.echo = s.cmd ∧ t.nlat = s.nid ∧ t.pcnt = 0 ∧ t.rxbuf = [] ∧ NoResult t ∧
      SameOperands s t ∧ SameStreams s t ∧ SameInputs s t ∧
      (s.cmd ≠ 0x03 → s.cmd ≠ 0x0F → s.cmd ≠ 0x14 → s.cmd ≠ 0x15 → EndedWith 1 1 s t) ∧
      (s.cmd = 0x03 → s.nid ≠ s.npos → EndedWith 1 2 s t) ∧
      (s.cmd = 0x03 ∧ s.nid = s.npos ∧ 83 < s.nid.toNat ∨ (s.cmd = 0x14 ∨ s.cmd = 0x15) ∧ 252 < s.nid.toNat →
        EndedWith 1 3 s t) ∧
      (s.cmd = 0x03 ∧ s.nid = s.npos ∧ s.nid.toNat ≤ 83 ∨ s.cmd = 0x0F ∨ (s.cmd = 0x14 ∨ s.cmd = 0x15) ∧ s.nid.toNat ≤ 252 →
        t.busy = true ∧ t.done = false ∧ t.err = 0 ∧ t.esub = 0 ∧
        t.ph = (if s.cmd = 0x0F ∨ s.cmd = 0x15 then Phase.flush else Phase.send) ∧
        t.exp.toNat = expectedLength s.cmd s.nid.toNat ∧
        ∃ i, fetchCommand s = some i ∧ i.wf = true ∧ t.txFrame = encode i ∧ t.txlen.toNat = (encode i).length)

/-- Rule R85: the frame is a function of CMD, NID, DUR, ID[0..NID) and POS[0..NID) at START and of nothing else. Two states
that agree on these, and on nothing else, and in both of which START is accepted, get the same frame. -/
def Obligations.FrameDependsOnOperandsOnly : Prop :=
  ∀ s₁ s₂ t₁ t₂ : State, s₁.busy = false → s₂.busy = false →
    s₁.cmd = s₂.cmd → s₁.nid = s₂.nid → s₁.dur = s₂.dur →
    (∀ (i : Nat) (h : i < 256), i < s₁.nid.toNat → s₁.ids[i] = s₂.ids[i] ∧ s₁.poss[i] = s₂.poss[i]) →
    hostStart s₁ = .next t₁ → hostStart s₂ = .next t₂ → t₁.busy = true → t₂.busy = true →
    t₁.txFrame = t₂.txFrame

/-- Rule R75: the host steps that a command line is shorthand for put its operands where the next START takes them. -/
def Obligations.CommandLineLoadsItsOperands : Prop :=
  ∀ (i : Instr) (s : State) (ms : List Move), i.key = .command → i.count ≤ 255 →
    (∀ ids ps d, i = .move ids ps d → ps.length ≤ 255) →
    s.busy = false → s.sched = (operandWrites i).map Move.write ++ ms →
    ∃ t, Host.Core.run Sys2Proof.core (operandWrites i).length s = .next t ∧ fetchCommand t = some i ∧
      t.sched = ms ∧ t.busy = false ∧ t.tmo = s.tmo ∧ SameStreams s t

/-- A step runs the decoded instruction: the command that the operand registers hold when the host writes START, and the
response that RXBUF holds when the engine is in CHECK (rules R91, R96). Around `exec` the step only takes the move, or
counts the free draw, that it used; both are the model's own (log entries 1 and 2). -/
def Obligations.StepRunsTheDecodedInstruction : Prop :=
  ∀ (s : State) (ms : List Move) (i : Instr),
    (s.sched = .write (.ctrl true) :: ms → s.busy = false → fetchCommand s = some i →
      step s = exec i { s with sched := ms }) ∧
    (∀ d rest, s.sched = .engine d :: ms → s.ph = .check →
      decode (.response s.echo s.nlat.toNat) s.rxbuf = .ok (i, rest) → step s = exec i { s with sched := ms }) ∧
    (∀ rest, s.sched = [] → s.ph = .check → decode (.response s.echo s.nlat.toNat) s.rxbuf = .ok (i, rest) →
      step s = exec i { s with draws := s.draws + 1 })

/-- Rules R6, R7, R91, R92 to R96: a step is the one move it takes. A scheduled engine step is the action of the phase that the
sequencer is in, under the draw of the move; a START with BUSY = 0 is `hostStart`; with nothing scheduled and a command in
progress the engine takes its phase under the next free draw. The schedule and the free draws are the model's own (log
entries 1 and 2). -/
def Obligations.StepTakesOneMove : Prop :=
  ∀ s : State,
    (∀ d ms, s.sched = .engine d :: ms → step s = engineStep d { s with sched := ms }) ∧
    (∀ ms, s.sched = .write (.ctrl true) :: ms → s.busy = false → step s = hostStart { s with sched := ms }) ∧
    (s.sched = [] → s.ph ≠ .idle → step s = engineStep (Config.freeDraw s.draws) { s with draws := s.draws + 1 })

/-- Every well-formed instruction can be placed so that the very next step runs it, from every state. Where it is placed is
the model's choice (log entry 6). -/
def Obligations.PlacedInstructionRunsNext : Prop :=
  ∀ (i : Instr) (s : State), i.wf = true →
    step (placeInstr i s) = exec i { placeInstr i s with sched := s.sched }

/-! ### The two responses -/

/-- Rules R97, R99: BATR in CHECK of a battery query writes VBAT and RKIND and completes; nothing else changes. -/
def Obligations.BatrDeliversMillivolts : Prop :=
  ∀ (len : Byte) (mv : Half) (s : State), s.ph = .check → s.echo = 0x0F →
    ∃ t, exec (.batr len mv) s = .next t ∧ t.vbat = mv ∧ t.rkind = 1 ∧ t.rcnt = s.rcnt ∧ t.rpos = s.rpos ∧
      Completed s t ∧ SameStreams s t

/-- Rules R98, R99: POSR in CHECK of a position query of at most as many ids writes RPOS[i] from group i for i below NLAT, RCNT
and RKIND, and completes; nothing else changes. Where the frame has fewer groups than the request has ids, which rule R57
rules out, the machine stops; that it stops is the model's choice (log entry 8). -/
def Obligations.PosrDeliversPositions : Prop :=
  ∀ (len c : Byte) (es : List PosEntry) (s : State), s.ph = .check → s.echo = 0x15 →
    (∀ (hn : s.nlat.toNat ≤ es.length),
      ∃ t, exec (.posr len c es) s = .next t ∧
        (∀ (i : Nat) (h : i < 256), t.rpos[i] = if hi : i < s.nlat.toNat then (es[i]'(Nat.lt_of_lt_of_le hi hn)).pos else 0) ∧
        t.rcnt = s.nlat ∧ t.rkind = 2 ∧ t.vbat = s.vbat ∧ Completed s t ∧ SameStreams s t) ∧
    (es.length < s.nlat.toNat → exec (.posr len c es) s = .fault .rxbufIndex)

/-- Rule R96: a response of the other query is BadEcho in CHECK. That a response executed in another phase changes nothing is
the model's choice (log entry 9): rule R96 looks at a response in CHECK only. -/
def Obligations.ResponseNeedsItsRequest : Prop :=
  ∀ (i : Instr) (s : State), i.row.isCommand = false →
    (s.ph = .check → i.opcode ≠ s.echo →
      ∃ t, exec i s = .next t ∧ EndedWith 4 3 s t ∧ SameLatches s t ∧ SameStreams s t) ∧
    (s.ph ≠ .check → exec i s = .next s)

/-- Rules R96, R97, R98, R101: CHECK as a function of ECHO, NLAT and RXBUF, by frame index: BadSync, else BadEcho, else the
voltage from bytes 4 and 5, or position `i` from bytes `6 + 3i` and `7 + 3i`. -/
def Obligations.CheckDecidesByIndex : Prop :=
  ∀ (d : Draw) (s : State), s.ph = .check →
    (s.echo = 0x0F ∧ s.rxbuf.length = 6 ∨ s.echo = 0x15 ∧ s.rxbuf.length = 3 * s.nlat.toNat + 5) →
    ∃ t, engineStep d s = .next t ∧ SameLatches s t ∧ SameStreams s t ∧
      (s.rxbuf[0]? ≠ some 0x55 ∨ s.rxbuf[1]? ≠ some 0x55 → EndedWith 4 2 s t) ∧
      (s.rxbuf[0]? = some 0x55 → s.rxbuf[1]? = some 0x55 →
        (s.rxbuf[3]? ≠ some s.echo → EndedWith 4 3 s t) ∧
        (s.rxbuf[3]? = some s.echo → Completed s t ∧
          (s.echo = 0x0F → t.rkind = 1 ∧ t.rcnt = s.rcnt ∧ t.rpos = s.rpos ∧
            t.vbat.toNat = (s.rxbuf.getD 4 0).toNat + 256 * (s.rxbuf.getD 5 0).toNat) ∧
          (s.echo = 0x15 → t.rkind = 2 ∧ t.rcnt = s.nlat ∧ t.vbat = s.vbat ∧
            ∀ (i : Nat) (h : i < 256), t.rpos[i].toNat =
              if i < s.nlat.toNat then (s.rxbuf.getD (6 + 3 * i) 0).toNat + 256 * (s.rxbuf.getD (7 + 3 * i) 0).toNat
              else 0)))

/-! ### The phases before CHECK -/

/-- Rule R92: FLUSH. A short read and a failed one take bytes from the head of RXQ as rule R48 says: a short one fewer than the
sample, and as many as the transport's answer names where that is fewer. -/
def Obligations.FlushDiscardsWhatOneSampleSaw : Prop :=
  ∀ (d : Draw) (s : State), s.ph = .flush →
    (s.rxq = [] → engineStep d s = .next { s with ph := .send }) ∧
    (s.rxq ≠ [] →
      (d.rx = .ok → engineStep d s = .next { s with rxq := [], ph := .send }) ∧
      (∀ k, d.rx = .short k → ∃ t k', engineStep d s = .next t ∧ EndedWith 2 2 s t ∧ SameLatches s t ∧
        t.txlog = s.txlog ∧ k' < s.rxq.length ∧ t.rxq = s.rxq.drop k' ∧ (k < s.rxq.length → k' = k)) ∧
      (∀ k, d.rx = .fail k → ∃ t, engineStep d s = .next t ∧ EndedWith 2 1 s t ∧ SameLatches s t ∧
        t.txlog = s.txlog ∧ t.rxq = s.rxq.drop k))

/-- Rule R93: SEND. -/
def Obligations.SendHandsOverTheFrame : Prop :=
  ∀ (d : Draw) (s : State), s.ph = .send →
    (d.tx = .ok → (s.echo = 0x0F ∨ s.echo = 0x15) →
      engineStep d s = .next { s with txlog := s.txlog ++ s.txFrame, ph := .poll }) ∧
    (d.tx = .ok → s.echo ≠ 0x0F → s.echo ≠ 0x15 →
      ∃ t, engineStep d s = .next t ∧ Completed s t ∧ t.txlog = s.txlog ++ s.txFrame ∧ t.rxq = s.rxq ∧
        t.rkind = s.rkind ∧ t.vbat = s.vbat ∧ t.rcnt = s.rcnt ∧ t.rpos = s.rpos) ∧
    (∀ k, d.tx = .fail k → ∃ t, engineStep d s = .next t ∧ EndedWith 2 3 s t ∧ SameLatches s t ∧ t.rxq = s.rxq ∧
      t.txlog = s.txlog ++ s.txFrame.take k)

/-- Rule R94: POLL, one sample. -/
def Obligations.PollTestsEquality : Prop :=
  ∀ (d : Draw) (s : State), s.ph = .poll →
    (s.rxq.length = s.exp.toNat → engineStep d s = .next { s with ph := .read }) ∧
    (s.rxq.length ≠ s.exp.toNat → s.pcnt = s.tmo →
      ∃ t, engineStep d s = .next t ∧ EndedWith 3 1 s t ∧ SameLatches s t ∧ SameStreams s t) ∧
    (s.rxq.length ≠ s.exp.toNat → s.pcnt ≠ s.tmo →
      ∃ t, engineStep d s = .next t ∧ (s.pcnt.toNat < s.tmo.toNat → t.pcnt.toNat = s.pcnt.toNat + 1) ∧
        t = { s with pcnt := t.pcnt })

/-- Rule R95: READ, with EXP bytes in the inbound buffer, as rule R48 derives of every call. -/
def Obligations.ReadTakesExactlyTheExpectedBytes : Prop :=
  ∀ (d : Draw) (s : State), s.ph = .read → 1 ≤ s.exp.toNat → s.exp.toNat ≤ s.rxq.length →
    (d.rx = .ok → ∃ t, engineStep d s = .next t ∧ t.rxbuf.length = s.exp.toNat ∧ s.rxq = t.rxbuf ++ t.rxq ∧
      t = { s with rxbuf := t.rxbuf, rxq := t.rxq, ph := .check }) ∧
    (∀ k, d.rx = .short k → ∃ t k', engineStep d s = .next t ∧ EndedWith 4 1 s t ∧ SameLatches s t ∧
      t.txlog = s.txlog ∧ k' < s.exp.toNat ∧ t.rxq = s.rxq.drop k' ∧ (k < s.exp.toNat → k' = k)) ∧
    (∀ k, d.rx = .fail k → ∃ t, engineStep d s = .next t ∧ EndedWith 2 4 s t ∧ SameLatches s t ∧
      t.txlog = s.txlog ∧ t.rxq = s.rxq.drop k)

/-- Rules R32, R52: an arrival appends its bytes, in their order and all of them, at the tail of RXQ, in every phase, and changes
nothing else; around it the step takes the move (log entry 1). -/
def Obligations.ArrivalAppendsAtTheTail : Prop :=
  ∀ (s : State) (b : List Byte) (ms : List Move), s.sched = .arrive b :: ms →
    step s = .next { s with sched := ms, rxq := s.rxq ++ b }

/-- Rules R46, R48: the primitives give the outcomes of their contracts and no other, and every one of those outcomes for
some answer of the environment. -/
def Obligations.TransportOutcomesAreExactlyTheContract : Prop :=
  ∀ (n : Nat) (b : List Byte) (s : State), 1 ≤ n →
    (∀ o, (n ≤ s.rxq.length ∧ rxRead n o s = (.ok (s.rxq.take n), { s with rxq := s.rxq.drop n })) ∨
      (∃ k, k < n ∧ k ≤ s.rxq.length ∧ rxRead n o s = (.short (s.rxq.take k), { s with rxq := s.rxq.drop k })) ∨
      ∃ k, k ≤ s.rxq.length ∧ rxRead n o s = (.fail, { s with rxq := s.rxq.drop k })) ∧
    (n ≤ s.rxq.length → ∃ o, rxRead n o s = (.ok (s.rxq.take n), { s with rxq := s.rxq.drop n })) ∧
    (∀ k, k < n → k ≤ s.rxq.length →
      ∃ o, rxRead n o s = (.short (s.rxq.take k), { s with rxq := s.rxq.drop k })) ∧
    (∀ k, k ≤ s.rxq.length → ∃ o, rxRead n o s = (.fail, { s with rxq := s.rxq.drop k })) ∧
    (∀ o, txWrite b o s = (true, { s with txlog := s.txlog ++ b }) ∨
      ∃ p, p <+: b ∧ txWrite b o s = (false, { s with txlog := s.txlog ++ p })) ∧
    (∃ o, txWrite b o s = (true, { s with txlog := s.txlog ++ b })) ∧
    ∀ p, p <+: b → ∃ o, txWrite b o s = (false, { s with txlog := s.txlog ++ p })

/-- Rule R118, with the codes of rules R110 and R115: `raise` writes the error pair, clears the result, ends the command and
does nothing else. -/
def Obligations.RaiseIsTheErrorEntry : Prop :=
  (∀ (c : Cause) (s : State), EndedWith (raise c s).err (raise c s).esub s (raise c s) ∧ SameLatches s (raise c s) ∧
    SameStreams s (raise c s)) ∧
  ∀ s : State,
    ((raise .badOpcode s).err = 1 ∧ (raise .badOpcode s).esub = 1) ∧
    ((raise .lengthMismatch s).err = 1 ∧ (raise .lengthMismatch s).esub = 2) ∧
    ((raise .countRange s).err = 1 ∧ (raise .countRange s).esub = 3) ∧
    ((raise .flushFail s).err = 2 ∧ (raise .flushFail s).esub = 1) ∧
    ((raise .flushShort s).err = 2 ∧ (raise .flushShort s).esub = 2) ∧
    ((raise .writeFail s).err = 2 ∧ (raise .writeFail s).esub = 3) ∧
    ((raise .readFail s).err = 2 ∧ (raise .readFail s).esub = 4) ∧
    ((raise .pollExpired s).err = 3 ∧ (raise .pollExpired s).esub = 1) ∧
    ((raise .shortRead s).err = 4 ∧ (raise .shortRead s).esub = 1) ∧
    ((raise .badSync s).err = 4 ∧ (raise .badSync s).esub = 2) ∧
    ((raise .badEcho s).err = 4 ∧ (raise .badEcho s).esub = 3)

/-! ### Whole-machine rules -/

/-- The invariant holds after reset. -/
def Obligations.InvariantHoldsAtReset : Prop := Inv State.reset

/-- Every step, whatever agent takes it and whatever the transport answers, keeps the invariant. -/
def Obligations.StepKeepsTheInvariant : Prop :=
  ∀ s t : State, Inv s → step s = .next t → Inv t

/-- Rule R110, "Nothing is fatal", rule R57 and the totality of rule R103: from a state that keeps the invariant no step
stops the machine. -/
def Obligations.NothingStopsTheMachine : Prop :=
  ∀ s : State, Inv s → ∃ t, step s = .next t

/-- Rule R103: PH changes only from IDLE by a START, from another phase by an engine step along the table, or by a reset. -/
def Obligations.PhaseChangesOnlyByTheTable : Prop :=
  ∀ s t : State, Inv s → step s = .next t → t.ph ≠ s.ph → (∀ ms, s.sched ≠ .reset :: ms) →
    (s.ph = .idle → (∃ ms, s.sched = .write (.ctrl true) :: ms) ∧
      (t.ph = .flush ∧ (s.cmd = 0x0F ∨ s.cmd = 0x15) ∨ t.ph = .send ∧ (s.cmd = 0x03 ∨ s.cmd = 0x14))) ∧
    (s.ph ≠ .idle → (s.sched = [] ∨ ∃ d ms, s.sched = .engine d :: ms) ∧
      (t.ph = .idle ∧ t.done = true ∨
        s.ph = .flush ∧ t.ph = .send ∨
        s.ph = .send ∧ t.ph = .poll ∧ (s.echo = 0x0F ∨ s.echo = 0x15) ∨
        s.ph = .poll ∧ t.ph = .read ∧ s.rxq.length = s.exp.toNat ∨
        s.ph = .read ∧ t.ph = .check))

/-- Rules R40, R51, R52, R117: bytes are sent only by SEND, and then some first part of the frame; bytes leave the inbound
buffer only from its head, in FLUSH or READ; bytes join it only at its tail, when they arrive. A reset is left aside. -/
def Obligations.StreamsMoveOnlyInTheirPhases : Prop :=
  ∀ s t : State, step s = .next t → (∀ ms, s.sched ≠ .reset :: ms) →
    (t.txlog = s.txlog ∨ s.ph = .send ∧ ∃ p, p <+: s.txFrame ∧ t.txlog = s.txlog ++ p) ∧
    (t.rxq = s.rxq ∨
      (s.ph = .flush ∨ s.ph = .read) ∧ (s.sched = [] ∨ ∃ d ms, s.sched = .engine d :: ms) ∧ t.rxq <:+ s.rxq ∨
      ∃ b ms, s.sched = .arrive b :: ms ∧ t.rxq = s.rxq ++ b)

/-- Rule R104: a MOVE or an UNLOAD in progress ends after one engine step and a query after at most TMO + 5, whatever arrives
between the steps and whatever the transport answers. -/
def Obligations.EveryCommandEnds : Prop :=
  ∀ (s : State) (l : List (List Byte × Draw)), Inv s → s.busy = true →
    (if s.echo = 0x03 ∨ s.echo = 0x14 then 1 else s.tmo.toNat + 5) ≤ l.length →
    ∃ t, engineRun l s = .next t ∧ t.ph = .idle ∧ t.busy = false ∧ t.done = true ∧ SameOperands s t

/-- Rule R136: where the level is above EXP in POLL, the query ends in Timeout after TMO + 1 samples in all, whatever arrives
meanwhile, and none of the inbound bytes is lost. -/
def Obligations.LevelAboveExpectedTimesOut : Prop :=
  ∀ (s : State) (l : List (List Byte × Draw)), s.ph = .poll → s.exp.toNat < s.rxq.length →
    s.pcnt.toNat ≤ s.tmo.toNat → l.length = s.tmo.toNat - s.pcnt.toNat + 1 →
    ∃ t, engineRun l s = .next t ∧ EndedWith 3 1 s t ∧ t.txlog = s.txlog ∧
      t.rxq = s.rxq ++ (l.map Prod.fst).flatten

/-- Rules R45, R52, R101: a whole exchange over a transport that keeps its contract and a controller that sends exactly the
expected bytes once the request is out: whatever stale bytes RXQ held, the request is sent and the result is the decode of
those bytes. -/
def Obligations.QueryReturnsTheDecodedResponse : Prop :=
  ∀ (s : State) (r : List Byte) (ms : List Move), Inv s → s.ph = .flush → r.length = s.exp.toNat →
    r[0]? = some 0x55 → r[1]? = some 0x55 → r[3]? = some s.echo →
    s.sched = [.engine Draw.ok, .engine Draw.ok, .arrive r, .engine Draw.ok, .engine Draw.ok, .engine Draw.ok] ++ ms →
    ∃ t, Host.Core.run Sys2Proof.core 6 s = .next t ∧ t.sched = ms ∧ t.ph = .idle ∧ t.busy = false ∧ t.done = true ∧
      t.err = 0 ∧ t.esub = 0 ∧ SameOperands s t ∧ t.rxq = [] ∧ t.txlog = s.txlog ++ s.txFrame ∧
      (s.echo = 0x0F → t.rkind = 1 ∧ t.rcnt = 0 ∧
        t.vbat.toNat = (r.getD 4 0).toNat + 256 * (r.getD 5 0).toNat) ∧
      (s.echo = 0x15 → t.rkind = 2 ∧ t.vbat = 0 ∧ t.rcnt = s.nlat ∧
        ∀ (i : Nat) (h : i < 256), t.rpos[i].toNat =
          if i < s.nlat.toNat then (r.getD (6 + 3 * i) 0).toNat + 256 * (r.getD (7 + 3 * i) 0).toNat else 0)

/-- Rule R36, with the no-history sense of rule R8: what a command leaves in the hidden registers is not observable. Two
states in IDLE that differ in nothing but hidden registers give, under the same inputs and after any number of steps, states
that differ to the outside in nothing. -/
def Obligations.HiddenLeftoversAreNeverObservable : Prop :=
  ∀ (k : Nat) (s₁ s₂ t₁ : State), s₁.ph = .idle → s₂.ph = .idle → SameToTheOutside s₁ s₂ →
    Host.Core.run Sys2Proof.core k s₁ = .next t₁ →
    ∃ t₂, Host.Core.run Sys2Proof.core k s₂ = .next t₂ ∧ SameToTheOutside t₁ t₂

/-- Rule R105: the volts view of a voltage is the exact rational millivolts / 1000. -/
def Obligations.VoltsAreMillivoltsOverThousand : Prop :=
  ∀ mv : Half, volts mv = (mv.toNat : Rat) / 1000
end

