-- ==== Sys2Proof/Laws/Decode.lean ====
section
/-! SUPPORT. The small laws of the wire formats: splitting and joining 16-bit fields, lengths, and that each list reader
undoes its list writer and the other way round. -/

namespace Sys2Proof

/-! ### Bytes and halves (rule R69) -/

theorem le16_toNat (lo hi : Byte) : (le16 lo hi).toNat = lo.toNat + 256 * hi.toNat := by
  have := lo.isLt
  have := hi.isLt
  simp [le16]
  omega

theorem lo8_toNat (v : Half) : (lo8 v).toNat = v.toNat % 256 := by
  simp [lo8]

theorem hi8_toNat (v : Half) : (hi8 v).toNat = v.toNat / 256 := by
  have := v.isLt
  simp [hi8]
  omega

@[simp] theorem le16_lo8_hi8 (v : Half) : le16 (lo8 v) (hi8 v) = v := by
  apply BitVec.eq_of_toNat_eq
  rw [le16_toNat, lo8_toNat, hi8_toNat]
  omega

@[simp] theorem lo8_le16 (lo hi : Byte) : lo8 (le16 lo hi) = lo := by
  apply BitVec.eq_of_toNat_eq
  have := lo.isLt
  rw [lo8_toNat, le16_toNat]
  omega

@[simp] theorem hi8_le16 (lo hi : Byte) : hi8 (le16 lo hi) = hi := by
  apply BitVec.eq_of_toNat_eq
  have := lo.isLt
  rw [hi8_toNat, le16_toNat]
  omega

@[simp] theorem toByte_toNat_of_lt {n : Nat} (h : n < 256) : (toByte n).toNat = n := by
  simp [toByte, Nat.mod_eq_of_lt h]

@[simp] theorem toByte_toNat (b : Byte) : toByte b.toNat = b := by
  simp [toByte]

/-! ### Lengths -/

@[simp] theorem moveBody_length (ids : List Byte) (ps : List Half) :
    (moveBody ids ps).length = 3 * min ids.length ps.length := by
  induction ids, ps using moveBody.induct with
  | case1 i ids p ps ih => simp [moveBody, ih]; omega
  | case2 ids ps h =>
    cases ids with
    | nil => simp [moveBody]
    | cons i is =>
      cases ps with
      | nil => simp [moveBody]
      | cons p ps => exact (h i is p ps rfl rfl).elim

@[simp] theorem entryBody_length (es : List PosEntry) : (entryBody es).length = 3 * es.length := by
  induction es with
  | nil => rfl
  | cons e es ih => simp [entryBody, ih]; omega

@[simp] theorem encode_length (i : Instr) : (encode i).length = 4 + i.payload.length := by
  simp [encode]; omega

/-! ### Reading what was written -/

theorem takeMoves_moveBody (ids : List Byte) (ps : List Half) (rest : List Byte) (h : ids.length = ps.length) :
    takeMoves ids.length (moveBody ids ps ++ rest) = some (ids, ps, rest) := by
  induction ids generalizing ps with
  | nil => cases ps with
    | nil => rfl
    | cons p ps => simp at h
  | cons i ids ih => cases ps with
    | nil => simp at h
    | cons p ps =>
      simp only [List.length_cons, Nat.add_right_cancel_iff] at h
      simp [moveBody, takeMoves, ih ps h]

theorem takeIds_append (ids rest : List Byte) : takeIds ids.length (ids ++ rest) = some (ids, rest) := by
  induction ids with
  | nil => rfl
  | cons i ids ih => simp [takeIds, ih]

theorem takeEntries_entryBody (es : List PosEntry) (rest : List Byte) :
    takeEntries es.length (entryBody es ++ rest) = some (es, rest) := by
  induction es with
  | nil => rfl
  | cons e es ih => simp [entryBody, takeEntries, ih]

/-! ### Writing what was read -/

theorem takeMoves_some {n : Nat} {f rest : List Byte} {ids : List Byte} {ps : List Half}
    (h : takeMoves n f = some (ids, ps, rest)) :
    ids.length = n ∧ ps.length = n ∧ f = moveBody ids ps ++ rest := by
  induction n, f using takeMoves.induct generalizing ids ps rest with
  | case1 f => simp only [takeMoves, Option.some.injEq, Prod.mk.injEq] at h; obtain ⟨rfl, rfl, rfl⟩ := h; simp [moveBody]
  | case2 n i lo hi f ids' ps' rest' hr ih =>
    simp only [takeMoves, hr, Option.some.injEq, Prod.mk.injEq] at h
    obtain ⟨rfl, rfl, rfl⟩ := h
    obtain ⟨h1, h2, h3⟩ := ih hr
    simp [moveBody, h1, h2, h3]
  | case3 n i lo hi f hr ih => simp [takeMoves, hr] at h
  | case4 n f hf =>
    unfold takeMoves at h
    split at h
    · omega
    · exact (hf _ _ _ _ rfl).elim
    · cases h

theorem takeIds_some {n : Nat} {f rest ids : List Byte} (h : takeIds n f = some (ids, rest)) :
    ids.length = n ∧ f = ids ++ rest := by
  induction n, f using takeIds.induct generalizing ids rest with
  | case1 f => simp only [takeIds, Option.some.injEq, Prod.mk.injEq] at h; obtain ⟨rfl, rfl⟩ := h; simp
  | case2 n i f ids' rest' hr ih =>
    simp only [takeIds, hr, Option.some.injEq, Prod.mk.injEq] at h
    obtain ⟨rfl, rfl⟩ := h
    obtain ⟨h1, h2⟩ := ih hr
    simp [h1, h2]
  | case3 n i f hr ih => simp [takeIds, hr] at h
  | case4 n => simp [takeIds] at h

theorem takeEntries_some {n : Nat} {f rest : List Byte} {es : List PosEntry}
    (h : takeEntries n f = some (es, rest)) : es.length = n ∧ f = entryBody es ++ rest := by
  induction n, f using takeEntries.induct generalizing es rest with
  | case1 f => simp only [takeEntries, Option.some.injEq, Prod.mk.injEq] at h; obtain ⟨rfl, rfl⟩ := h; simp [entryBody]
  | case2 n i lo hi f es' rest' hr ih =>
    simp only [takeEntries, hr, Option.some.injEq, Prod.mk.injEq] at h
    obtain ⟨rfl, rfl⟩ := h
    obtain ⟨h1, h2⟩ := ih hr
    simp [entryBody, h1, h2]
  | case3 n i lo hi f hr ih => simp [takeEntries, hr] at h
  | case4 n f hf =>
    unfold takeEntries at h
    split at h
    · omega
    · exact (hf _ _ _ _ rfl).elim
    · cases h

/-- The groups are there exactly when the bytes are. -/
theorem takeEntries_isSome {n : Nat} {f : List Byte} (h : 3 * n ≤ f.length) :
    ∃ es rest, takeEntries n f = some (es, rest) := by
  induction n generalizing f with
  | zero => exact ⟨[], f, rfl⟩
  | succ n ih =>
    match f, h with
    | i :: lo :: hi :: f, h =>
      obtain ⟨es, rest, he⟩ := ih (f := f) (by simp at h; omega)
      exact ⟨⟨i, le16 lo hi⟩ :: es, rest, by simp [takeEntries, he]⟩
    | [], h => simp at h
    | [_], h => simp at h; omega
    | [_, _], h => simp at h; omega

/-! ### Where an entry stands -/

/-- Entry `k` of a MOVE occupies three bytes of its own (rule R88). -/
theorem moveBody_getElem? {ids : List Byte} {ps : List Half} {k : Nat} (h1 : k < ids.length) (h2 : k < ps.length) :
    (moveBody ids ps)[3 * k]? = some ids[k] ∧ (moveBody ids ps)[3 * k + 1]? = some (lo8 ps[k]) ∧
      (moveBody ids ps)[3 * k + 2]? = some (hi8 ps[k]) := by
  induction k generalizing ids ps with
  | zero => match ids, ps, h1, h2 with
    | i :: ids, p :: ps, _, _ => simp [moveBody]
  | succ k ih => match ids, ps, h1, h2 with
    | i :: ids, p :: ps, h1, h2 =>
      have := ih (ids := ids) (ps := ps) (by simpa using h1) (by simpa using h2)
      simpa [moveBody, Nat.mul_add] using this

/-- The position of group `k`, read by index (rule R98). -/
theorem takeEntries_pos {n : Nat} {f rest : List Byte} {es : List PosEntry} (h : takeEntries n f = some (es, rest))
    {k : Nat} (hk : k < n) : (es.map PosEntry.pos)[k]? = some (le16 (f.getD (3 * k + 1) 0) (f.getD (3 * k + 2) 0)) := by
  induction n, f using takeEntries.induct generalizing es rest k with
  | case1 f => omega
  | case2 n i lo hi f es' rest' hr ih =>
    simp only [takeEntries, hr, Option.some.injEq, Prod.mk.injEq] at h
    obtain ⟨rfl, rfl⟩ := h
    cases k with
    | zero => simp
    | succ k => simpa [Nat.mul_add] using ih hr (k := k) (by omega)
  | case3 n i lo hi f hr ih => simp [takeEntries, hr] at h
  | case4 n f hf =>
    unfold takeEntries at h
    split at h
    · omega
    · exact (hf _ _ _ _ rfl).elim
    · cases h

/-! ### What decodes -/

/-- A MOVE payload that decodes (rule R63). -/
theorem decodeMove_ok {pl rest : List Byte} {i : Instr} (h : decodeMove pl = .ok (i, rest)) :
    ∃ ids ps d, i = .move ids ps d ∧ i.wf = true ∧ pl = i.payload ++ rest := by
  unfold decodeMove at h
  split at h
  · rename_i c dl dh r
    split at h
    · cases h
    · rename_i hc
      split at h
      · rename_i ids ps r' hr
        cases h
        obtain ⟨h1, h2, h3⟩ := takeMoves_some hr
        refine ⟨ids, ps, _, rfl, ?_, ?_⟩
        · simp [Instr.wf, h1, h2]; omega
        · simp [Instr.payload, h1, h3]
      · cases h
  · cases h

/-- An UNLOAD or POSQ payload that decodes (rules R65, R66). -/
theorem decodeIds_ok {mk : List Byte → Instr} {pl rest : List Byte} {i : Instr}
    (h : decodeIds mk pl = .ok (i, rest)) :
    ∃ ids : List Byte, i = mk ids ∧ ids.length ≤ 252 ∧ pl = (toByte ids.length :: ids) ++ rest := by
  unfold decodeIds at h
  split at h
  · rename_i c r
    split at h
    · cases h
    · rename_i hc
      split at h
      · rename_i ids r' hr
        cases h
        obtain ⟨h1, h2⟩ := takeIds_some hr
        exact ⟨ids, rfl, by rw [h1]; simp [Config.listMax] at hc; exact hc, by simp [h1, h2]⟩
      · cases h
  · cases h

/-- Everything that a command frame that decodes says of its instruction (rules R63 to R66, R72). -/
theorem decodeCommand_ok {len op : Byte} {pl rest : List Byte} {i : Instr}
    (h : decodeCommand len op pl = .ok (i, rest)) :
    i.key = .command ∧ i.wf = true ∧ i.opcode = op ∧ pl = i.payload ++ rest ∧ (i = .batq → len = 2) := by
  unfold decodeCommand at h
  split at h
  · obtain ⟨ids, ps, d, rfl, h1, h2⟩ := decodeMove_ok h
    exact ⟨rfl, h1, by simp [Instr.opcode, *], h2, by simp⟩
  · split at h
    · split at h
      · cases h; refine ⟨rfl, rfl, by simp [Instr.opcode, *], by simp [Instr.payload], by simpa⟩
      · cases h
    · split at h
      · obtain ⟨ids, rfl, h1, h2⟩ := decodeIds_ok h
        exact ⟨rfl, by simpa [Instr.wf] using h1, by simp [Instr.opcode, *], h2, by simp⟩
      · split at h
        · obtain ⟨ids, rfl, h1, h2⟩ := decodeIds_ok h
          exact ⟨rfl, by simpa [Instr.wf] using h1, by simp [Instr.opcode, *], h2, by simp⟩
        · cases h

/-- Everything that a response that decodes says of its instruction (rules R67, R68, R73, R74). -/
theorem decodeResponse_ok {e len op : Byte} {n : Nat} {pl rest : List Byte} {i : Instr}
    (h : decodeResponse e n len op pl = .ok (i, rest)) :
    i.row.isCommand = false ∧ i.opcode = op ∧ op = e ∧ i.lengthByte = len ∧ pl = i.payload ++ rest ∧
      (e = 0x15 → i.count = n ∧ pl.length = 3 * n + 1 + rest.length) ∧
      (e = 0x0F → pl.length = 2 + rest.length) := by
  unfold decodeResponse at h
  split at h
  · cases h
  · rename_i he
    simp only [not_not, ne_eq] at he
    split at h
    · unfold decodeBatr at h
      split at h
      · cases h; simp_all [Instr.opcode, Instr.lengthByte, Instr.payload, Instr.row]; omega
      · cases h
    · split at h
      · unfold decodePosr at h
        split at h
        · split at h
          · rename_i hr
            cases h
            obtain ⟨h1, h2⟩ := takeEntries_some hr
            subst h2
            simp_all [Instr.opcode, Instr.lengthByte, Instr.payload, Instr.row, Instr.count]
            omega
          · cases h
        · cases h
      · cases h

/-- A command that decodes begins with the sync bytes (rule R60). -/
theorem decode_command_ok {f rest : List Byte} {i : Instr} (h : decode .command f = .ok (i, rest)) :
    ∃ len op pl, f = 0x55 :: 0x55 :: len :: op :: pl ∧ decodeCommand len op pl = .ok (i, rest) := by
  unfold decode at h
  split at h
  · split at h
    · cases h
    · rename_i hs
      simp only [ne_eq, not_or, not_not] at hs
      exact ⟨_, _, _, by rw [hs.1, hs.2], h⟩
  · cases h

/-- A response that decodes begins with the sync bytes (rule R96). -/
theorem decode_response_ok {e : Byte} {n : Nat} {f rest : List Byte} {i : Instr} (h : decode (.response e n) f = .ok (i, rest)) :
    ∃ len op pl, f = 0x55 :: 0x55 :: len :: op :: pl ∧ decodeResponse e n len op pl = .ok (i, rest) := by
  unfold decode at h
  split at h
  · split at h
    · cases h
    · rename_i hs
      simp only [ne_eq, not_or, not_not] at hs
      exact ⟨_, _, _, by rw [hs.1, hs.2], h⟩
  · cases h

end Sys2Proof
end

