-- ==== Sys2Proof/Laws/State.lean ====
section
/-! SUPPORT. One lemma per field of State and per shared update of it, true by rfl, so that no later proof unfolds a record
update. -/

namespace Sys2Proof.Machine

variable (s : State)

/-! ### State.clearResult -/

@[simp] theorem State.clearResult_cmd : s.clearResult.cmd = s.cmd := rfl
@[simp] theorem State.clearResult_nid : s.clearResult.nid = s.nid := rfl
@[simp] theorem State.clearResult_npos : s.clearResult.npos = s.npos := rfl
@[simp] theorem State.clearResult_dur : s.clearResult.dur = s.dur := rfl
@[simp] theorem State.clearResult_tmo : s.clearResult.tmo = s.tmo := rfl
@[simp] theorem State.clearResult_ids : s.clearResult.ids = s.ids := rfl
@[simp] theorem State.clearResult_poss : s.clearResult.poss = s.poss := rfl
@[simp] theorem State.clearResult_busy : s.clearResult.busy = s.busy := rfl
@[simp] theorem State.clearResult_done : s.clearResult.done = s.done := rfl
@[simp] theorem State.clearResult_err : s.clearResult.err = s.err := rfl
@[simp] theorem State.clearResult_esub : s.clearResult.esub = s.esub := rfl
@[simp] theorem State.clearResult_rkind : s.clearResult.rkind = kindNone := rfl
@[simp] theorem State.clearResult_vbat : s.clearResult.vbat = 0 := rfl
@[simp] theorem State.clearResult_rcnt : s.clearResult.rcnt = 0 := rfl
@[simp] theorem State.clearResult_rpos : s.clearResult.rpos = rposOf [] := rfl
@[simp] theorem State.clearResult_ph : s.clearResult.ph = s.ph := rfl
@[simp] theorem State.clearResult_txbuf : s.clearResult.txbuf = s.txbuf := rfl
@[simp] theorem State.clearResult_txlen : s.clearResult.txlen = s.txlen := rfl
@[simp] theorem State.clearResult_echo : s.clearResult.echo = s.echo := rfl
@[simp] theorem State.clearResult_nlat : s.clearResult.nlat = s.nlat := rfl
@[simp] theorem State.clearResult_exp : s.clearResult.exp = s.exp := rfl
@[simp] theorem State.clearResult_pcnt : s.clearResult.pcnt = s.pcnt := rfl
@[simp] theorem State.clearResult_rxbuf : s.clearResult.rxbuf = s.rxbuf := rfl
@[simp] theorem State.clearResult_rxq : s.clearResult.rxq = s.rxq := rfl
@[simp] theorem State.clearResult_txlog : s.clearResult.txlog = s.txlog := rfl
@[simp] theorem State.clearResult_sched : s.clearResult.sched = s.sched := rfl
@[simp] theorem State.clearResult_draws : s.clearResult.draws = s.draws := rfl

/-! ### raise -/

@[simp] theorem raise_cmd (c : Cause) : (raise c s).cmd = s.cmd := rfl
@[simp] theorem raise_nid (c : Cause) : (raise c s).nid = s.nid := rfl
@[simp] theorem raise_npos (c : Cause) : (raise c s).npos = s.npos := rfl
@[simp] theorem raise_dur (c : Cause) : (raise c s).dur = s.dur := rfl
@[simp] theorem raise_tmo (c : Cause) : (raise c s).tmo = s.tmo := rfl
@[simp] theorem raise_ids (c : Cause) : (raise c s).ids = s.ids := rfl
@[simp] theorem raise_poss (c : Cause) : (raise c s).poss = s.poss := rfl
@[simp] theorem raise_busy (c : Cause) : (raise c s).busy = false := rfl
@[simp] theorem raise_done (c : Cause) : (raise c s).done = true := rfl
@[simp] theorem raise_err (c : Cause) : (raise c s).err = c.err := rfl
@[simp] theorem raise_esub (c : Cause) : (raise c s).esub = c.esub := rfl
@[simp] theorem raise_rkind (c : Cause) : (raise c s).rkind = kindNone := rfl
@[simp] theorem raise_vbat (c : Cause) : (raise c s).vbat = 0 := rfl
@[simp] theorem raise_rcnt (c : Cause) : (raise c s).rcnt = 0 := rfl
@[simp] theorem raise_rpos (c : Cause) : (raise c s).rpos = rposOf [] := rfl
@[simp] theorem raise_ph (c : Cause) : (raise c s).ph = .idle := rfl
@[simp] theorem raise_txbuf (c : Cause) : (raise c s).txbuf = s.txbuf := rfl
@[simp] theorem raise_txlen (c : Cause) : (raise c s).txlen = s.txlen := rfl
@[simp] theorem raise_echo (c : Cause) : (raise c s).echo = s.echo := rfl
@[simp] theorem raise_nlat (c : Cause) : (raise c s).nlat = s.nlat := rfl
@[simp] theorem raise_exp (c : Cause) : (raise c s).exp = s.exp := rfl
@[simp] theorem raise_pcnt (c : Cause) : (raise c s).pcnt = s.pcnt := rfl
@[simp] theorem raise_rxbuf (c : Cause) : (raise c s).rxbuf = s.rxbuf := rfl
@[simp] theorem raise_rxq (c : Cause) : (raise c s).rxq = s.rxq := rfl
@[simp] theorem raise_txlog (c : Cause) : (raise c s).txlog = s.txlog := rfl
@[simp] theorem raise_sched (c : Cause) : (raise c s).sched = s.sched := rfl
@[simp] theorem raise_draws (c : Cause) : (raise c s).draws = s.draws := rfl

/-! ### complete -/

@[simp] theorem complete_cmd : (complete s).cmd = s.cmd := rfl
@[simp] theorem complete_nid : (complete s).nid = s.nid := rfl
@[simp] theorem complete_npos : (complete s).npos = s.npos := rfl
@[simp] theorem complete_dur : (complete s).dur = s.dur := rfl
@[simp] theorem complete_tmo : (complete s).tmo = s.tmo := rfl
@[simp] theorem complete_ids : (complete s).ids = s.ids := rfl
@[simp] theorem complete_poss : (complete s).poss = s.poss := rfl
@[simp] theorem complete_busy : (complete s).busy = false := rfl
@[simp] theorem complete_done : (complete s).done = true := rfl
@[simp] theorem complete_err : (complete s).err = s.err := rfl
@[simp] theorem complete_esub : (complete s).esub = s.esub := rfl
@[simp] theorem complete_rkind : (complete s).rkind = s.rkind := rfl
@[simp] theorem complete_vbat : (complete s).vbat = s.vbat := rfl
@[simp] theorem complete_rcnt : (complete s).rcnt = s.rcnt := rfl
@[simp] theorem complete_rpos : (complete s).rpos = s.rpos := rfl
@[simp] theorem complete_ph : (complete s).ph = .idle := rfl
@[simp] theorem complete_txbuf : (complete s).txbuf = s.txbuf := rfl
@[simp] theorem complete_txlen : (complete s).txlen = s.txlen := rfl
@[simp] theorem complete_echo : (complete s).echo = s.echo := rfl
@[simp] theorem complete_nlat : (complete s).nlat = s.nlat := rfl
@[simp] theorem complete_exp : (complete s).exp = s.exp := rfl
@[simp] theorem complete_pcnt : (complete s).pcnt = s.pcnt := rfl
@[simp] theorem complete_rxbuf : (complete s).rxbuf = s.rxbuf := rfl
@[simp] theorem complete_rxq : (complete s).rxq = s.rxq := rfl
@[simp] theorem complete_txlog : (complete s).txlog = s.txlog := rfl
@[simp] theorem complete_sched : (complete s).sched = s.sched := rfl
@[simp] theorem complete_draws : (complete s).draws = s.draws := rfl

/-! ### State.arrive -/

@[simp] theorem State.arrive_cmd (b : List Byte) : (s.arrive b).cmd = s.cmd := rfl
@[simp] theorem State.arrive_nid (b : List Byte) : (s.arrive b).nid = s.nid := rfl
@[simp] theorem State.arrive_npos (b : List Byte) : (s.arrive b).npos = s.npos := rfl
@[simp] theorem State.arrive_dur (b : List Byte) : (s.arrive b).dur = s.dur := rfl
@[simp] theorem State.arrive_tmo (b : List Byte) : (s.arrive b).tmo = s.tmo := rfl
@[simp] theorem State.arrive_ids (b : List Byte) : (s.arrive b).ids = s.ids := rfl
@[simp] theorem State.arrive_poss (b : List Byte) : (s.arrive b).poss = s.poss := rfl
@[simp] theorem State.arrive_busy (b : List Byte) : (s.arrive b).busy = s.busy := rfl
@[simp] theorem State.arrive_done (b : List Byte) : (s.arrive b).done = s.done := rfl
@[simp] theorem State.arrive_err (b : List Byte) : (s.arrive b).err = s.err := rfl
@[simp] theorem State.arrive_esub (b : List Byte) : (s.arrive b).esub = s.esub := rfl
@[simp] theorem State.arrive_rkind (b : List Byte) : (s.arrive b).rkind = s.rkind := rfl
@[simp] theorem State.arrive_vbat (b : List Byte) : (s.arrive b).vbat = s.vbat := rfl
@[simp] theorem State.arrive_rcnt (b : List Byte) : (s.arrive b).rcnt = s.rcnt := rfl
@[simp] theorem State.arrive_rpos (b : List Byte) : (s.arrive b).rpos = s.rpos := rfl
@[simp] theorem State.arrive_ph (b : List Byte) : (s.arrive b).ph = s.ph := rfl
@[simp] theorem State.arrive_txbuf (b : List Byte) : (s.arrive b).txbuf = s.txbuf := rfl
@[simp] theorem State.arrive_txlen (b : List Byte) : (s.arrive b).txlen = s.txlen := rfl
@[simp] theorem State.arrive_echo (b : List Byte) : (s.arrive b).echo = s.echo := rfl
@[simp] theorem State.arrive_nlat (b : List Byte) : (s.arrive b).nlat = s.nlat := rfl
@[simp] theorem State.arrive_exp (b : List Byte) : (s.arrive b).exp = s.exp := rfl
@[simp] theorem State.arrive_pcnt (b : List Byte) : (s.arrive b).pcnt = s.pcnt := rfl
@[simp] theorem State.arrive_rxbuf (b : List Byte) : (s.arrive b).rxbuf = s.rxbuf := rfl
@[simp] theorem State.arrive_rxq (b : List Byte) : (s.arrive b).rxq = s.rxq ++ b := rfl
@[simp] theorem State.arrive_txlog (b : List Byte) : (s.arrive b).txlog = s.txlog := rfl
@[simp] theorem State.arrive_sched (b : List Byte) : (s.arrive b).sched = s.sched := rfl
@[simp] theorem State.arrive_draws (b : List Byte) : (s.arrive b).draws = s.draws := rfl

/-! ### State.startClear -/

@[simp] theorem State.startClear_cmd (op n : Byte) : (s.startClear op n).cmd = s.cmd := rfl
@[simp] theorem State.startClear_nid (op n : Byte) : (s.startClear op n).nid = s.nid := rfl
@[simp] theorem State.startClear_npos (op n : Byte) : (s.startClear op n).npos = s.npos := rfl
@[simp] theorem State.startClear_dur (op n : Byte) : (s.startClear op n).dur = s.dur := rfl
@[simp] theorem State.startClear_tmo (op n : Byte) : (s.startClear op n).tmo = s.tmo := rfl
@[simp] theorem State.startClear_ids (op n : Byte) : (s.startClear op n).ids = s.ids := rfl
@[simp] theorem State.startClear_poss (op n : Byte) : (s.startClear op n).poss = s.poss := rfl
@[simp] theorem State.startClear_busy (op n : Byte) : (s.startClear op n).busy = s.busy := rfl
@[simp] theorem State.startClear_done (op n : Byte) : (s.startClear op n).done = false := rfl
@[simp] theorem State.startClear_err (op n : Byte) : (s.startClear op n).err = 0 := rfl
@[simp] theorem State.startClear_esub (op n : Byte) : (s.startClear op n).esub = 0 := rfl
@[simp] theorem State.startClear_rkind (op n : Byte) : (s.startClear op n).rkind = kindNone := rfl
@[simp] theorem State.startClear_vbat (op n : Byte) : (s.startClear op n).vbat = 0 := rfl
@[simp] theorem State.startClear_rcnt (op n : Byte) : (s.startClear op n).rcnt = 0 := rfl
@[simp] theorem State.startClear_rpos (op n : Byte) : (s.startClear op n).rpos = rposOf [] := rfl
@[simp] theorem State.startClear_ph (op n : Byte) : (s.startClear op n).ph = s.ph := rfl
@[simp] theorem State.startClear_txbuf (op n : Byte) : (s.startClear op n).txbuf = s.txbuf := rfl
@[simp] theorem State.startClear_txlen (op n : Byte) : (s.startClear op n).txlen = s.txlen := rfl
@[simp] theorem State.startClear_echo (op n : Byte) : (s.startClear op n).echo = op := rfl
@[simp] theorem State.startClear_nlat (op n : Byte) : (s.startClear op n).nlat = n := rfl
@[simp] theorem State.startClear_exp (op n : Byte) : (s.startClear op n).exp = s.exp := rfl
@[simp] theorem State.startClear_pcnt (op n : Byte) : (s.startClear op n).pcnt = 0 := rfl
@[simp] theorem State.startClear_rxbuf (op n : Byte) : (s.startClear op n).rxbuf = [] := rfl
@[simp] theorem State.startClear_rxq (op n : Byte) : (s.startClear op n).rxq = s.rxq := rfl
@[simp] theorem State.startClear_txlog (op n : Byte) : (s.startClear op n).txlog = s.txlog := rfl
@[simp] theorem State.startClear_sched (op n : Byte) : (s.startClear op n).sched = s.sched := rfl
@[simp] theorem State.startClear_draws (op n : Byte) : (s.startClear op n).draws = s.draws := rfl

/-! ### State.accept -/

@[simp] theorem State.accept_cmd (f : List Byte) (e : Nat) : (s.accept f e).cmd = s.cmd := rfl
@[simp] theorem State.accept_nid (f : List Byte) (e : Nat) : (s.accept f e).nid = s.nid := rfl
@[simp] theorem State.accept_npos (f : List Byte) (e : Nat) : (s.accept f e).npos = s.npos := rfl
@[simp] theorem State.accept_dur (f : List Byte) (e : Nat) : (s.accept f e).dur = s.dur := rfl
@[simp] theorem State.accept_tmo (f : List Byte) (e : Nat) : (s.accept f e).tmo = s.tmo := rfl
@[simp] theorem State.accept_ids (f : List Byte) (e : Nat) : (s.accept f e).ids = s.ids := rfl
@[simp] theorem State.accept_poss (f : List Byte) (e : Nat) : (s.accept f e).poss = s.poss := rfl
@[simp] theorem State.accept_busy (f : List Byte) (e : Nat) : (s.accept f e).busy = true := rfl
@[simp] theorem State.accept_done (f : List Byte) (e : Nat) : (s.accept f e).done = s.done := rfl
@[simp] theorem State.accept_err (f : List Byte) (e : Nat) : (s.accept f e).err = s.err := rfl
@[simp] theorem State.accept_esub (f : List Byte) (e : Nat) : (s.accept f e).esub = s.esub := rfl
@[simp] theorem State.accept_rkind (f : List Byte) (e : Nat) : (s.accept f e).rkind = s.rkind := rfl
@[simp] theorem State.accept_vbat (f : List Byte) (e : Nat) : (s.accept f e).vbat = s.vbat := rfl
@[simp] theorem State.accept_rcnt (f : List Byte) (e : Nat) : (s.accept f e).rcnt = s.rcnt := rfl
@[simp] theorem State.accept_rpos (f : List Byte) (e : Nat) : (s.accept f e).rpos = s.rpos := rfl
@[simp] theorem State.accept_ph (f : List Byte) (e : Nat) : (s.accept f e).ph = if isQuery s.echo then .flush else .send := rfl
@[simp] theorem State.accept_txbuf (f : List Byte) (e : Nat) : (s.accept f e).txbuf = loadFrame f s.txbuf := rfl
@[simp] theorem State.accept_txlen (f : List Byte) (e : Nat) : (s.accept f e).txlen = BitVec.ofNat 9 f.length := rfl
@[simp] theorem State.accept_echo (f : List Byte) (e : Nat) : (s.accept f e).echo = s.echo := rfl
@[simp] theorem State.accept_nlat (f : List Byte) (e : Nat) : (s.accept f e).nlat = s.nlat := rfl
@[simp] theorem State.accept_exp (f : List Byte) (e : Nat) : (s.accept f e).exp = BitVec.ofNat 10 e := rfl
@[simp] theorem State.accept_pcnt (f : List Byte) (e : Nat) : (s.accept f e).pcnt = s.pcnt := rfl
@[simp] theorem State.accept_rxbuf (f : List Byte) (e : Nat) : (s.accept f e).rxbuf = s.rxbuf := rfl
@[simp] theorem State.accept_rxq (f : List Byte) (e : Nat) : (s.accept f e).rxq = s.rxq := rfl
@[simp] theorem State.accept_txlog (f : List Byte) (e : Nat) : (s.accept f e).txlog = s.txlog := rfl
@[simp] theorem State.accept_sched (f : List Byte) (e : Nat) : (s.accept f e).sched = s.sched := rfl
@[simp] theorem State.accept_draws (f : List Byte) (e : Nat) : (s.accept f e).draws = s.draws := rfl

end Sys2Proof.Machine
end

