-- ==== Sys2Proof/Laws/Ops.lean ====
section
/-! SUPPORT. One lemma per shared operation that says everything it can do: the transport primitives, TXBUF, RPOS, the
operand registers, START, raising, and each engine phase. Proofs cite these and do not unfold the operations. -/

namespace Sys2Proof.Machine

/-! ### Arrays -/

theorem rposOf_getElem (l : List Half) (i : Nat) (h : i < 256) : (rposOf l)[i] = l.getD i 0 := by
  simp [rposOf]

@[simp] theorem rposOf_nil_getElem (i : Nat) (h : i < 256) : (rposOf [])[i] = 0 := by
  simp [rposOf]

theorem loadFrame_getElem (f : List Byte) (buf : Vector Byte 257) (i : Nat) (h : i < 257) :
    (loadFrame f buf)[i] = f.getD i buf[i] := by
  simp [loadFrame]

/-- What has been loaded is what is read back (rule R27). -/
theorem loadFrame_take {f : List Byte} (buf : Vector Byte 257) (h : f.length ≤ 257) :
    (loadFrame f buf).toList.take f.length = f := by
  apply List.ext_getElem
  · simp [h]
  · intro i h1 h2
    have hi : i < 257 := by omega
    have := loadFrame_getElem f buf i hi
    simp [List.getD_eq_getElem?_getD, h2] at this
    simpa using this

theorem accept_txFrame {f : List Byte} (e : Nat) (s : State) (h : f.length ≤ 257) : (s.accept f e).txFrame = f := by
  have : f.length % 512 = f.length := Nat.mod_eq_of_lt (by omega)
  simp [State.txFrame, this, loadFrame_take _ h]

theorem idList_length (s : State) (n : Byte) : (s.idList n.toNat).length = n.toNat := by
  have := n.isLt
  simp [State.idList]; omega

theorem posList_length (s : State) (n : Byte) : (s.posList n.toNat).length = n.toNat := by
  have := n.isLt
  simp [State.posList]; omega

theorem idList_getElem {s : State} {n i : Nat} (h : i < (s.idList n).length) :
    (s.idList n)[i] = s.ids[i]'(by simp [State.idList] at h; omega) := by
  simp [State.idList]

theorem posList_getElem {s : State} {n i : Nat} (h : i < (s.posList n).length) :
    (s.posList n)[i] = s.poss[i]'(by simp [State.posList] at h; omega) := by
  simp [State.posList]

/-! ### The transport primitives -/

theorem txWrite_cases (b : List Byte) (o : TxOutcome) (s : State) :
    txWrite b o s = (true, { s with txlog := s.txlog ++ b }) ∨
      ∃ k, txWrite b o s = (false, { s with txlog := s.txlog ++ b.take k }) := by
  cases o with
  | ok => exact .inl rfl
  | fail k => exact .inr ⟨k, rfl⟩

/-- Everything an `RxRead(n)` can do (rule R48): all `n` bytes, fewer than `n`, or a failure that loses some. -/
theorem rxRead_cases {n : Nat} (o : RxOutcome) (s : State) (hn : 1 ≤ n) :
    (n ≤ s.rxq.length ∧ rxRead n o s = (.ok (s.rxq.take n), { s with rxq := s.rxq.drop n })) ∨
      (∃ k, k < n ∧ k ≤ s.rxq.length ∧ rxRead n o s = (.short (s.rxq.take k), { s with rxq := s.rxq.drop k })) ∨
      ∃ k, rxRead n o s = (.fail, { s with rxq := s.rxq.drop k }) := by
  cases o with
  | ok =>
    by_cases h : n ≤ s.rxq.length
    · exact .inl ⟨h, by simp [rxRead, h]⟩
    · exact .inr (.inl ⟨s.rxq.length, by omega, le_refl _, by simp [rxRead, h]⟩)
  | short k =>
    refine .inr (.inl ⟨min (min k (n - 1)) s.rxq.length, by omega, Nat.min_le_right _ _, ?_⟩)
    simp only [rxRead]
    rcases le_total (min k (n - 1)) s.rxq.length with h | h
    · rw [Nat.min_eq_left h]
    · rw [Nat.min_eq_right h, List.take_of_length_le h, List.drop_of_length_le h]; simp
  | fail k => exact .inr (.inr ⟨k, rfl⟩)

/-! ### START -/

/-- Everything a START can do (rule R91): nothing while BUSY = 1, else an error or an accepted command. -/
theorem startWith_cases (op n : Byte) (enc : Except Cause (List Byte × Nat)) (s : State) :
    (s.busy = true ∧ startWith op n enc s = s) ∨
      (s.busy = false ∧ ∃ c, enc = .error c ∧ startWith op n enc s = raise c (s.startClear op n)) ∨
      (s.busy = false ∧ ∃ f e, enc = .ok (f, e) ∧ startWith op n enc s = (s.startClear op n).accept f e) := by
  cases hb : s.busy with
  | true => exact .inl ⟨rfl, by simp [startWith, hb]⟩
  | false => cases enc with
    | error c => exact .inr (.inl ⟨rfl, c, rfl, by simp [startWith, hb]⟩)
    | ok fe => exact .inr (.inr ⟨rfl, fe.1, fe.2, rfl, by simp [startWith, hb]⟩)

theorem encodeMove_ok {ids : List Byte} {ps : List Half} (d : Half) (h : ids.length = ps.length) (hn : ids.length ≤ 83) :
    encodeMove ids ps d = .ok (encode (.move ids ps d), 0) := by
  have : ¬ps.length > Config.moveMax := by simp only [Config.moveMax]; omega
  simp [encodeMove, h, this]

theorem encodeUnload_ok {ids : List Byte} (hn : ids.length ≤ 252) :
    encodeUnload ids = .ok (encode (.unload ids), 0) := by
  simp [encodeUnload, Config.listMax, hn]

theorem encodePosq_ok {ids : List Byte} (hn : ids.length ≤ 252) :
    encodePosq ids = .ok (encode (.posq ids), 3 * ids.length + 5) := by
  simp [encodePosq, Config.listMax, hn]

theorem encodeMove_mismatch {ids : List Byte} {ps : List Half} (d : Half) (h : ids.length ≠ ps.length) :
    encodeMove ids ps d = .error .lengthMismatch := by
  rw [encodeMove, if_pos h]

theorem encodeMove_range {ids : List Byte} {ps : List Half} (d : Half) (h : ids.length = ps.length)
    (hn : 83 < ids.length) : encodeMove ids ps d = .error .countRange := by
  rw [encodeMove, if_neg (not_not.mpr h), if_pos hn]

theorem encodeUnload_range {ids : List Byte} (hn : 252 < ids.length) : encodeUnload ids = .error .countRange := by
  rw [encodeUnload, if_pos hn]

theorem encodePosq_range {ids : List Byte} (hn : 252 < ids.length) : encodePosq ids = .error .countRange := by
  rw [encodePosq, if_pos hn]

theorem encodeMove_ok_inv {ids : List Byte} {ps : List Half} {d : Half} {f : List Byte} {e : Nat}
    (h : encodeMove ids ps d = .ok (f, e)) :
    ids.length = ps.length ∧ ids.length ≤ 83 ∧ f = encode (.move ids ps d) ∧ e = 0 := by
  unfold encodeMove at h
  split at h
  · cases h
  · split at h
    · cases h
    · cases h; simp_all [Config.moveMax]

theorem encodeUnload_ok_inv {ids f : List Byte} {e : Nat} (h : encodeUnload ids = .ok (f, e)) :
    ids.length ≤ 252 ∧ f = encode (.unload ids) ∧ e = 0 := by
  unfold encodeUnload at h
  split at h
  · cases h
  · cases h; simp_all [Config.listMax]

theorem encodePosq_ok_inv {ids f : List Byte} {e : Nat} (h : encodePosq ids = .ok (f, e)) :
    ids.length ≤ 252 ∧ f = encode (.posq ids) ∧ e = 3 * ids.length + 5 := by
  unfold encodePosq at h
  split at h
  · cases h
  · cases h; simp_all [Config.listMax]

/-- A START that is not ignored and whose encoder rule passes. -/
theorem startWith_ok {s : State} (op n : Byte) {f : List Byte} {e : Nat} {enc : Except Cause (List Byte × Nat)}
    (hb : s.busy = false) (he : enc = .ok (f, e)) :
    startWith op n enc s = (s.startClear op n).accept f e := by
  simp [startWith, hb, he]

/-- A START that is not ignored and whose encoder rule raises. -/
theorem startWith_error {s : State} (op n : Byte) {c : Cause} {enc : Except Cause (List Byte × Nat)}
    (hb : s.busy = false) (he : enc = .error c) : startWith op n enc s = raise c (s.startClear op n) := by
  simp [startWith, hb, he]

/-- What an accepted START leaves, in the terms of the statements. -/
theorem accept_started (op n : Byte) (f : List Byte) (e : Nat) (s : State) :
    Started op n s ((s.startClear op n).accept f e) := by
  constructor <;> first | rfl | skip
  · constructor <;> first | rfl | (intro i h; simp)
  · constructor <;> rfl
  · constructor <;> rfl
  · constructor <;> rfl

/-! ### The two ends of a command -/

/-- What `raise` leaves, in the terms of the statements. -/
theorem raise_ended (c : Cause) (s : State) : EndedWith c.err c.esub s (raise c s) := by
  constructor <;> first | rfl | skip
  · constructor <;> first | rfl | (intro i h; simp)
  · constructor <;> rfl
  · constructor <;> rfl

/-- What a START that raises leaves, in the terms of the statements. -/
theorem raise_start_ended (c : Cause) (op n : Byte) (s : State) :
    EndedWith c.err c.esub s (raise c (s.startClear op n)) := by
  constructor <;> first | rfl | skip
  · constructor <;> first | rfl | (intro i h; simp)
  · constructor <;> rfl
  · constructor <;> rfl

/-- What `complete` leaves, in the terms of the statements. -/
theorem complete_completed (s : State) : Completed s (complete s) := by
  constructor <;> first | rfl | (constructor <;> rfl)

/-! ### One step -/

theorem step_cons {s : State} {m : Move} {ms : List Move} (h : s.sched = m :: ms) :
    step s = moveStep m { s with sched := ms } := by
  rw [step, h]

theorem step_nil {s : State} (h : s.sched = []) : step s = engineAlone s := by
  rw [step, h]

theorem hostWrite_start {s : State} (hb : s.busy = false) : hostWrite (.ctrl true) s = hostStart s := by
  simp [hostWrite, hb]

theorem hostWrite_busy {s : State} (w : Write) (hb : s.busy = true) : hostWrite w s = .next s := by
  simp [hostWrite, hb]

theorem hostWrite_register {s : State} {w : Write} (hb : s.busy = false) (hw : ∀ b, w ≠ .ctrl b) :
    hostWrite w s = .next (writeRegister w s) := by
  cases w <;> first | exact absurd rfl (hw _) | simp [hostWrite, hb]

theorem hostWrite_zero (s : State) : hostWrite (.ctrl false) s = .next s := by
  simp [hostWrite]

theorem hostStart_some {s : State} {i : Instr} (h : fetchCommand s = some i) : hostStart s = exec i s := by
  rw [hostStart, h]

theorem hostStart_none {s : State} (h : fetchCommand s = none) : hostStart s = .next (startBadOpcode s) := by
  rw [hostStart, h]

/-! ### The engine's phases -/

/-- Everything FLUSH can do (rule R92). -/
theorem engineFlush_cases (o : RxOutcome) (s : State) :
    (s.rxq = [] ∧ engineFlush o s = { s with ph := .send }) ∨
      (s.rxq ≠ [] ∧ engineFlush o s = { s with rxq := [], ph := .send }) ∨
      (∃ k, engineFlush o s = raise .flushShort { s with rxq := s.rxq.drop k }) ∨
      ∃ k, engineFlush o s = raise .flushFail { s with rxq := s.rxq.drop k } := by
  by_cases h : s.rxq = []
  · exact .inl ⟨h, by simp [engineFlush, rxLevel, h]⟩
  · have hl : 1 ≤ s.rxq.length := List.length_pos_iff.mpr h
    have h0 : s.rxq.length ≠ 0 := by omega
    rcases rxRead_cases (n := s.rxq.length) o s hl with ⟨_, e⟩ | ⟨k, _, _, e⟩ | ⟨k, e⟩
    · exact .inr (.inl ⟨h, by simp [engineFlush, rxLevel, e, h]⟩)
    · exact .inr (.inr (.inl ⟨k, by simp [engineFlush, rxLevel, e, h]⟩))
    · exact .inr (.inr (.inr ⟨k, by simp [engineFlush, rxLevel, e, h]⟩))

/-- Everything SEND can do (rule R93). -/
theorem engineSend_cases (o : TxOutcome) (s : State) :
    (isQuery s.echo = true ∧ engineSend o s = { s with txlog := s.txlog ++ s.txFrame, ph := .poll }) ∨
      (isQuery s.echo = false ∧ engineSend o s = complete { s with txlog := s.txlog ++ s.txFrame }) ∨
      ∃ k, engineSend o s = raise .writeFail { s with txlog := s.txlog ++ s.txFrame.take k } := by
  rcases txWrite_cases s.txFrame o s with e | ⟨k, e⟩
  · cases h : isQuery s.echo with
    | true => exact .inl ⟨rfl, by simp [engineSend, e, h]⟩
    | false => exact .inr (.inl ⟨rfl, by simp [engineSend, e, h]⟩)
  · exact .inr (.inr ⟨k, by simp [engineSend, e]⟩)

/-- Everything POLL can do (rule R94). -/
theorem enginePoll_cases (s : State) :
    (s.rxq.length = s.exp.toNat ∧ enginePoll s = { s with ph := .read }) ∨
      (s.rxq.length ≠ s.exp.toNat ∧ s.pcnt = s.tmo ∧ enginePoll s = raise .pollExpired s) ∨
      (s.rxq.length ≠ s.exp.toNat ∧ s.pcnt ≠ s.tmo ∧ enginePoll s = { s with pcnt := s.pcnt + 1 }) := by
  by_cases h : s.rxq.length = s.exp.toNat
  · exact .inl ⟨h, by simp [enginePoll, rxLevel, h]⟩
  · by_cases h2 : s.pcnt = s.tmo
    · exact .inr (.inl ⟨h, h2, by simp [enginePoll, rxLevel, h, h2]⟩)
    · exact .inr (.inr ⟨h, h2, by simp [enginePoll, rxLevel, h, h2]⟩)

/-- Everything READ can do (rule R95). -/
theorem engineRead_cases (o : RxOutcome) (s : State) (he : 1 ≤ s.exp.toNat) :
    (s.exp.toNat ≤ s.rxq.length ∧ engineRead o s =
        { s with rxq := s.rxq.drop s.exp.toNat, rxbuf := s.rxq.take s.exp.toNat, ph := .check }) ∨
      (∃ k, engineRead o s = raise .shortRead { s with rxq := s.rxq.drop k }) ∨
      ∃ k, engineRead o s = raise .readFail { s with rxq := s.rxq.drop k } := by
  rcases rxRead_cases (n := s.exp.toNat) o s he with ⟨h, e⟩ | ⟨k, _, _, e⟩ | ⟨k, e⟩
  · exact .inl ⟨h, by simp [engineRead, e]⟩
  · exact .inr (.inl ⟨k, by simp [engineRead, e]⟩)
  · exact .inr (.inr ⟨k, by simp [engineRead, e]⟩)

/-- The battery response that the decoder finds in six bytes with the right sync and echo (rules R67, R96). -/
theorem fetchResponse_battery {s : State} {len lo hi : Byte} {rest : List Byte} (he : s.echo = opBattery)
    (h : s.rxbuf = 0x55 :: 0x55 :: len :: s.echo :: lo :: hi :: rest) :
    fetchResponse s = .ok (.batr len (le16 lo hi), rest) := by
  simp [fetchResponse, h, decode, Config.sync, decodeResponse, he, decodeBatr]

/-- The position response that the decoder finds when the sync and the echo are right and the groups are there (rules R68,
R96). -/
theorem fetchResponse_positions {s : State} {len c : Byte} {body rest : List Byte} {es : List PosEntry}
    (he : s.echo = opPosition) (h : s.rxbuf = 0x55 :: 0x55 :: len :: s.echo :: c :: body)
    (hb : takeEntries s.nlat.toNat body = some (es, rest)) :
    fetchResponse s = .ok (.posr len c es, rest) := by
  simp [fetchResponse, h, decode, Config.sync, decodeResponse, he, decodePosr, hb]

/-- A wrong sync byte is found first (rule R96). -/
theorem fetchResponse_badSync {s : State} {s0 s1 len op : Byte} {body : List Byte}
    (h : s.rxbuf = s0 :: s1 :: len :: op :: body) (hs : s0 ≠ 0x55 ∨ s1 ≠ 0x55) :
    fetchResponse s = .error .badSync := by
  simp only [fetchResponse, h, decode]
  exact if_pos hs

/-- With the sync bytes right a wrong echo is found (rule R96). -/
theorem fetchResponse_badEcho {s : State} {len op : Byte} {body : List Byte}
    (h : s.rxbuf = 0x55 :: 0x55 :: len :: op :: body) (he : op ≠ s.echo) :
    fetchResponse s = .error .badEcho := by
  simp [fetchResponse, h, decode, Config.sync, decodeResponse, he]

/-- Everything BATR can do (rules R96, R97). -/
theorem execBatr_cases (len : Byte) (mv : Half) (s : State) :
    (s.ph ≠ .check ∧ execBatr len mv s = .next s) ∨
      (s.ph = .check ∧ s.echo ≠ opBattery ∧ execBatr len mv s = .next (raise .badEcho s)) ∨
      (s.ph = .check ∧ s.echo = opBattery ∧
        execBatr len mv s = .next (complete { s with vbat := mv, rkind := kindBattery })) := by
  by_cases h : s.ph = .check
  · by_cases h2 : s.echo = opBattery
    · exact .inr (.inr ⟨h, h2, by simp [execBatr, h, h2]⟩)
    · exact .inr (.inl ⟨h, h2, by rw [execBatr, if_neg (by simp [h]), if_pos h2]⟩)
  · exact .inl ⟨h, by simp [execBatr, h]⟩

/-- Everything POSR can do (rules R96, R98). -/
theorem execPosr_cases (len c : Byte) (es : List PosEntry) (s : State) :
    (s.ph ≠ .check ∧ execPosr len c es s = .next s) ∨
      (s.ph = .check ∧ s.echo ≠ opPosition ∧ execPosr len c es s = .next (raise .badEcho s)) ∨
      (s.ph = .check ∧ s.echo = opPosition ∧ es.length < s.nlat.toNat ∧ execPosr len c es s = .fault .rxbufIndex) ∨
      (s.ph = .check ∧ s.echo = opPosition ∧ s.nlat.toNat ≤ es.length ∧ execPosr len c es s = .next (complete { s with
        rpos := rposOf ((es.take s.nlat.toNat).map PosEntry.pos), rcnt := s.nlat, rkind := kindPositions })) := by
  by_cases h : s.ph = .check
  · by_cases h2 : s.echo = opPosition
    · by_cases h3 : es.length < s.nlat.toNat
      · exact .inr (.inr (.inl ⟨h, h2, h3, by simp [execPosr, h, h2, h3]⟩))
      · exact .inr (.inr (.inr ⟨h, h2, by omega, by simp [execPosr, h, h2, h3]⟩))
    · exact .inr (.inl ⟨h, h2, by rw [execPosr, if_neg (by simp [h]), if_pos h2]⟩)
  · exact .inl ⟨h, by simp [execPosr, h]⟩

/-! ### The register file -/

/-- One entry of an array after a write to an entry. -/
theorem getD_set {α : Type} (v : Vector α 256) (i k : Nat) (b d : α) : (v.setIfInBounds i b).toList.getD k d = if k = i ∧ k < 256 then b else v.toList.getD k d := by
  simp only [List.getD_eq_getElem?_getD, Vector.toList_setIfInBounds, List.getElem?_set]
  by_cases h : i = k
  · subst h
    by_cases h : i < 256 <;> simp [h]
  · simp [h, Ne.symm h]

/-- Everything a host read of a number from 12 on can give: an entry of one of the three arrays, or no register (rule R10). -/
theorem hostRead_array {no : Nat} (s : State) (h : 12 ≤ no) :
    hostRead no s =
      if no < 256 then none
      else if no < 512 then some ((s.ids.toList.getD (no - 256) 0).setWidth 32)
      else if no < 768 then some ((s.poss.toList.getD (no - 512) 0).setWidth 32)
      else if no < 1024 then some ((s.rpos.toList.getD (no - 768) 0).setWidth 32)
      else none := by
  unfold hostRead
  split <;> first | omega | rfl

/-- The host reads ID[k] under number 256 + k (rule R10). -/
theorem hostRead_ids {s : State} {k : Nat} (h : k < 256) :
    hostRead (256 + k) s = some ((s.ids.toList.getD k 0).setWidth 32) := by
  rw [hostRead_array s (by omega), if_neg (by omega), if_pos (by omega), Nat.add_sub_cancel_left]

/-- The host reads POS[k] under number 512 + k (rule R10). -/
theorem hostRead_poss {s : State} {k : Nat} (h : k < 256) :
    hostRead (512 + k) s = some ((s.poss.toList.getD k 0).setWidth 32) := by
  rw [hostRead_array s (by omega), if_neg (by omega), if_neg (by omega), if_pos (by omega), Nat.add_sub_cancel_left]

/-- The host reads RPOS[k] under number 768 + k (rule R10). -/
theorem hostRead_rpos {s : State} {k : Nat} (h : k < 256) :
    hostRead (768 + k) s = some ((s.rpos.toList.getD k 0).setWidth 32) := by
  rw [hostRead_array s (by omega), if_neg (by omega), if_neg (by omega), if_neg (by omega), if_pos (by omega),
    Nat.add_sub_cancel_left]

/-- A number that the table does not have names no register (rule R10). -/
theorem hostRead_none {s : State} {no : Nat} (h : 12 ≤ no ∧ no < 256 ∨ 1024 ≤ no) : hostRead no s = none := by
  rw [hostRead_array s (by omega)]
  rcases h with ⟨_, h⟩ | h
  · exact if_pos h
  · rw [if_neg (by omega), if_neg (by omega), if_neg (by omega), if_neg (by omega)]

/-- Everything a write to a number from 12 on can be: a write to an entry of one of the three arrays, or no write (rule
R10). -/
theorem ofNumber_array {no : Nat} (v : Nat) (h : 12 ≤ no) :
    Write.ofNumber no v =
      if no < 256 then none
      else if no < 512 then
        if v < 2 ^ 8 then some (.id (BitVec.ofNat 8 (no - 256)) (BitVec.ofNat 8 v)) else none
      else if no < 768 then some (.pos (BitVec.ofNat 8 (no - 512)) v)
      else if no < 1024 then some (.readOnly (.rpos (BitVec.ofNat 8 (no - 768))))
      else none := by
  unfold Write.ofNumber
  split <;> first | omega | rfl

/-- A host read looks at the registers of the table and at nothing else (rules R10, R34). -/
theorem hostRead_congr (no : Nat) {s t : State} (h0 : no = 0 → t.cmd = s.cmd) (h1 : no = 1 → t.nid = s.nid) (h2 : no = 2 → t.npos = s.npos)
   (h3 : no = 3 → t.dur = s.dur) (h4 : no = 4 → t.tmo = s.tmo) (hb : t.busy = s.busy) (hd : t.done = s.done) (he : t.err = s.err)
   (hsub : t.esub = s.esub) (hk : t.rkind = s.rkind) (hv : t.vbat = s.vbat) (hc : t.rcnt = s.rcnt) (hr : t.rpos = s.rpos)
   (hi : 256 ≤ no → no < 512 → t.ids.toList.getD (no - 256) 0 = s.ids.toList.getD (no - 256) 0)
   (hp : 512 ≤ no → no < 768 → t.poss.toList.getD (no - 512) 0 = s.poss.toList.getD (no - 512) 0) : hostRead no t = hostRead no s := by
  unfold hostRead
  split
  · rw [h0 rfl]
  · rw [h1 rfl]
  · rw [h2 rfl]
  · rw [h3 rfl]
  · rw [h4 rfl]
  · rfl
  · rw [State.status, State.status, hb, hd]
  · rw [he]
  · rw [hsub]
  · rw [hk]
  · rw [hv]
  · rw [hc]
  · split
    · rfl
    · split
      · rw [hi (by omega) (by omega)]
      · split
        · rw [hp (by omega) (by omega)]
        · split
          · rw [hr]
          · rfl

/-- `idWrites` loads the ids and nothing else (rule R75). -/
theorem load_ids (l : List Byte) (k : Nat) (s : State) (h : k + l.length ≤ 256) :
    ∃ v, loadOperands (idWrites k l) s = { s with ids := v } ∧ ∀ (i : Nat) (hi : i < 256), v[i] = if hh : k ≤ i ∧ i < k + l.length then l[i - k] else s.ids[i] := by
  induction l generalizing k s with
  | nil => exact ⟨s.ids, rfl, fun i hi => by rw [dif_neg (by simp)]⟩
  | cons b l ih =>
    simp at h
    obtain ⟨v, h1, h2⟩ := ih (k + 1) (writeRegister (.id (BitVec.ofNat 8 k) b) s) (by omega)
    refine ⟨v, h1, fun i hi => ?_⟩
    rw [h2]
    have hk : (BitVec.ofNat 8 k).toNat = k := by simp; omega
    by_cases hik : i = k
    · subst hik
      rw [dif_neg (by omega), dif_pos (by simp)]
      simp [writeRegister, hk]
    · by_cases hr : k + 1 ≤ i ∧ i < k + 1 + l.length
      · rw [dif_pos hr, dif_pos (by simp; omega)]
        simp [show i - k = (i - (k + 1)) + 1 by omega]
      · rw [dif_neg hr, dif_neg (by simp; omega)]
        simp only [writeRegister, Vector.getElem_setIfInBounds, hk]
        rw [if_neg (by omega)]

/-- `posWrites` loads the positions and nothing else (rule R75). -/
theorem load_pos (l : List Half) (k : Nat) (s : State) (h : k + l.length ≤ 256) :
    ∃ v, loadOperands (posWrites k l) s = { s with poss := v } ∧ ∀ (i : Nat) (hi : i < 256), v[i] = if hh : k ≤ i ∧ i < k + l.length then l[i - k] else s.poss[i] := by
  induction l generalizing k s with
  | nil => exact ⟨s.poss, rfl, fun i hi => by rw [dif_neg (by simp)]⟩
  | cons b l ih =>
    simp at h
    obtain ⟨v, h1, h2⟩ := ih (k + 1) (writeRegister (.pos (BitVec.ofNat 8 k) b.toNat) s) (by omega)
    refine ⟨v, h1, fun i hi => ?_⟩
    rw [h2]
    have hk : (BitVec.ofNat 8 k).toNat = k := by simp; omega
    by_cases hik : i = k
    · subst hik
      rw [dif_neg (by omega), dif_pos (by simp)]
      simp [writeRegister, hk, mask16]
    · by_cases hr : k + 1 ≤ i ∧ i < k + 1 + l.length
      · rw [dif_pos hr, dif_pos (by simp; omega)]
        simp [show i - k = (i - (k + 1)) + 1 by omega]
      · rw [dif_neg hr, dif_neg (by simp; omega)]
        simp only [writeRegister, Vector.getElem_setIfInBounds, hk]
        rw [if_neg (by omega)]

/-- Operand writes in two parts. -/
theorem loadOperands_append (a b : List Write) (s : State) : loadOperands (a ++ b) s = loadOperands b (loadOperands a s) := by
  simp [loadOperands, List.foldl_append]

/-- An `RxRead` takes bytes from the head of RXQ and changes nothing else (rule R48). -/
theorem rxRead_suffix (n o) (s : State) : (rxRead n o s).2.rxq <:+ s.rxq ∧ (rxRead n o s).2 = { s with rxq := (rxRead n o s).2.rxq } := by
  cases o <;> simp only [rxRead]
  · split
    · exact ⟨List.drop_suffix _ _, rfl⟩
    · exact ⟨List.nil_suffix, rfl⟩
  · exact ⟨List.drop_suffix _ _, trivial⟩
  · exact ⟨List.drop_suffix _ _, trivial⟩

/-- What CHECK decodes is a response. -/
theorem fetch_isResponse {s : State} {i : Instr} {r : List Byte} (hf : fetchResponse s = .ok (i, r)) : i.row.isCommand = false := by
  unfold fetchResponse decode at hf
  split at hf
  · split at hf
    · cases hf
    · simp only [decodeResponse] at hf
      split at hf
      · cases hf
      · split at hf
        · unfold decodeBatr at hf; split at hf <;> cases hf; rfl
        · split at hf
          · unfold decodePosr at hf
            split at hf
            · split at hf <;> cases hf; rfl
            · cases hf
          · cases hf
  · cases hf

end Sys2Proof.Machine
end

