-- ==== Sys2Proof/Laws/PerInstr.lean ====
section
/-! SUPPORT. The laws that are stated per instruction. `Framing`: the frame of a well-formed instruction is of the kind of
its row of `opcode_table.json` (rule R77), and its length is one that the block can hold (rules R5, R60). -/

namespace Sys2Proof.Laws.Framing

/-- What `Framing` says of one instruction. -/
def Statement (i : Instr) : Prop :=
  i.wf = true → i.row.fits (encode i) = true ∧ 4 ≤ (encode i).length ∧ (encode i).length ≤ Config.expMax

/-- A mask that leaves the length byte out does not see it. -/
theorem mask_length (len op : Byte) : 0x5555#16 ++ len ++ op &&& 0xFFFF00FF#32 = 0x5555#16 ++ 0#8 ++ op := by
  apply BitVec.eq_of_getLsbD_eq
  intro i hi
  simp only [BitVec.getLsbD_and, BitVec.getLsbD_append]
  interval_cases i <;> simp

theorem move (ids : List Byte) (ps : List Half) (d : Half) : Statement (.move ids ps d) := by
  intro h
  simp only [Instr.wf, Config.moveMax, Bool.and_eq_true, beq_iff_eq, decide_eq_true_eq] at h
  refine ⟨?_, by simp, ?_⟩
  · simp [Row.fits, headWord, encode, Instr.row, Instr.opcode, mask_length]
  · simp [Instr.payload, Config.expMax]; omega

theorem batq : Statement .batq := fun _ => by decide

theorem unload (ids : List Byte) : Statement (.unload ids) := by
  intro h
  simp only [Instr.wf, Config.listMax, decide_eq_true_eq] at h
  refine ⟨?_, by simp, ?_⟩
  · simp [Row.fits, headWord, encode, Instr.row, Instr.opcode, mask_length]
  · simp [Instr.payload, Config.expMax]; omega

theorem posq (ids : List Byte) : Statement (.posq ids) := by
  intro h
  simp only [Instr.wf, Config.listMax, decide_eq_true_eq] at h
  refine ⟨?_, by simp, ?_⟩
  · simp [Row.fits, headWord, encode, Instr.row, Instr.opcode, mask_length]
  · simp [Instr.payload, Config.expMax]; omega

theorem batr (len : Byte) (mv : Half) : Statement (.batr len mv) := by
  intro _
  refine ⟨?_, by simp, by simp [Instr.payload, Config.expMax]⟩
  simp [Row.fits, headWord, encode, Instr.row, Instr.opcode, mask_length]

theorem posr (len c : Byte) (es : List PosEntry) : Statement (.posr len c es) := by
  intro h
  simp only [Instr.wf, Config.listMax, decide_eq_true_eq] at h
  refine ⟨?_, by simp, ?_⟩
  · simp [Row.fits, headWord, encode, Instr.row, Instr.opcode, mask_length]
  · simp [Instr.payload, Config.expMax]; omega

end Sys2Proof.Laws.Framing
end

