-- ==== Sys2Proof/Laws/Safety.lean ====
section
/-! SUPPORT. The laws of the invariant and of the frames of `Safety`, and one step of the host's run. -/

namespace Sys2Proof.Machine

/-! ### Frames -/

theorem SameOperands.refl (s : State) : SameOperands s s := ⟨rfl, rfl, rfl, rfl, rfl, rfl, rfl⟩

theorem SameOperands.trans {a b c : State} (h : SameOperands a b) (g : SameOperands b c) : SameOperands a c :=
  ⟨g.1.trans h.1, g.2.trans h.2, g.3.trans h.3, g.4.trans h.4, g.5.trans h.5, g.6.trans h.6, g.7.trans h.7⟩

/-- A START touches no operand register and neither stream. -/
theorem startWith_operands {op n enc} {s : State} : SameOperands s (startWith op n enc s) ∧ (startWith op n enc s).rxq = s.rxq ∧ (startWith op n enc s).txlog = s.txlog := by
  rcases startWith_cases op n enc s with ⟨_, e⟩ | ⟨_, c, _, e⟩ | ⟨_, f, ex, hf, e⟩ <;> rw [e] <;> refine ⟨⟨rfl, rfl, rfl, rfl, rfl, rfl, rfl⟩, rfl, rfl⟩

/-- An instruction touches no operand register and neither stream. -/
theorem exec_frame {i : Instr} {s t : State} (h : exec i s = .next t) : SameOperands s t ∧ t.rxq = s.rxq ∧ t.txlog = s.txlog := by
  cases i with
  | move _ _ _ => cases h; exact startWith_operands
  | batq => cases h; exact startWith_operands
  | unload _ => cases h; exact startWith_operands
  | posq _ => cases h; exact startWith_operands
  | batr len mv =>
    change execBatr len mv s = .next t at h
    rcases execBatr_cases len mv s with ⟨_, e⟩ | ⟨_, _, e⟩ | ⟨hp, _, e⟩ <;> rw [e] at h <;> cases h <;> refine ⟨⟨rfl, rfl, rfl, rfl, rfl, rfl, rfl⟩, rfl, rfl⟩
  | posr len c es =>
    change execPosr len c es s = .next t at h
    rcases execPosr_cases len c es s with ⟨_, e⟩ | ⟨_, _, e⟩ | ⟨_, _, _, e⟩ | ⟨hp, _, hl, e⟩ <;> rw [e] at h <;> cases h <;> refine ⟨⟨rfl, rfl, rfl, rfl, rfl, rfl, rfl⟩, rfl, rfl⟩

/-- CHECK touches no operand register and neither stream. -/
theorem engineCheck_frame {s t : State} (h : engineCheck s = .next t) : SameOperands s t ∧ t.rxq = s.rxq ∧ t.txlog = s.txlog := by
  unfold engineCheck at h
  split at h <;> first | exact exec_frame h | (cases h; done) | (cases h; exact ⟨⟨rfl, rfl, rfl, rfl, rfl, rfl, rfl⟩, rfl, rfl⟩)

/-- An engine step touches no operand register; it sends only in SEND and reads only in FLUSH and READ. -/
theorem engineStep_frame {d : Draw} {s t : State} (h : engineStep d s = .next t) : SameOperands s t ∧
    (t.txlog = s.txlog ∨ s.ph = .send ∧ ∃ p, p <+: s.txFrame ∧ t.txlog = s.txlog ++ p) ∧
    (t.rxq = s.rxq ∨ (s.ph = .flush ∨ s.ph = .read) ∧ t.rxq <:+ s.rxq) := by
  cases hp : s.ph with
  | idle => simp only [engineStep, hp] at h; cases h; exact ⟨(SameOperands.refl s), .inl rfl, .inl rfl⟩
  | check =>
    simp only [engineStep, hp] at h
    obtain ⟨h1, h2, h3⟩ := engineCheck_frame h
    exact ⟨h1, .inl h3, .inl h2⟩
  | flush =>
    simp only [engineStep, hp] at h
    cases h
    rcases engineFlush_cases d.rx s with ⟨_, e⟩ | ⟨_, e⟩ | ⟨k, e⟩ | ⟨k, e⟩ <;> rw [e]
    · exact ⟨⟨rfl, rfl, rfl, rfl, rfl, rfl, rfl⟩, .inl rfl, .inl rfl⟩
    · exact ⟨⟨rfl, rfl, rfl, rfl, rfl, rfl, rfl⟩, .inl rfl, .inr ⟨.inl rfl, List.nil_suffix⟩⟩
    · exact ⟨⟨rfl, rfl, rfl, rfl, rfl, rfl, rfl⟩, .inl rfl, .inr ⟨.inl rfl, List.drop_suffix _ _⟩⟩
    · exact ⟨⟨rfl, rfl, rfl, rfl, rfl, rfl, rfl⟩, .inl rfl, .inr ⟨.inl rfl, List.drop_suffix _ _⟩⟩
  | send =>
    simp only [engineStep, hp] at h
    cases h
    rcases engineSend_cases d.tx s with ⟨hq, e⟩ | ⟨_, e⟩ | ⟨k, e⟩ <;> rw [e]
    · exact ⟨⟨rfl, rfl, rfl, rfl, rfl, rfl, rfl⟩, .inr ⟨rfl, _, List.prefix_rfl, rfl⟩, .inl rfl⟩
    · exact ⟨⟨rfl, rfl, rfl, rfl, rfl, rfl, rfl⟩, .inr ⟨rfl, _, List.prefix_rfl, rfl⟩, .inl rfl⟩
    · exact ⟨⟨rfl, rfl, rfl, rfl, rfl, rfl, rfl⟩, .inr ⟨rfl, _, List.take_prefix _ _, rfl⟩, .inl rfl⟩
  | poll =>
    simp only [engineStep, hp] at h
    cases h
    rcases enginePoll_cases s with ⟨hl, e⟩ | ⟨_, _, e⟩ | ⟨_, hne, e⟩ <;> rw [e] <;> exact ⟨⟨rfl, rfl, rfl, rfl, rfl, rfl, rfl⟩, .inl rfl, .inl rfl⟩
  | read =>
    simp only [engineStep, hp] at h
    cases h
    obtain ⟨h1, h2⟩ := rxRead_suffix s.exp.toNat d.rx s
    unfold engineRead
    split <;> rename_i ht <;> rw [ht] at h1 h2 <;> simp only at h1 h2 <;> rw [h2] <;> exact ⟨⟨rfl, rfl, rfl, rfl, rfl, rfl, rfl⟩, .inl rfl, .inr ⟨.inr rfl, h1⟩⟩

/-! ### The invariant -/

/-- Every error leaves the invariant, whatever the state was. -/
theorem raise_inv {c : Cause} {s : State} (h : s.rxbuf.length ≤ 761) : Inv (raise c s) := by
  constructor <;> simp [h]
  · cases c <;> rfl

/-- The inputs to come do not enter the invariant. -/
theorem Inv.inputs {s : State} (h : Inv s) (ms : List Move) (n : Nat) : Inv { s with sched := ms, draws := n } :=
  ⟨h.1, h.2, h.3, h.4, h.5, h.6, h.7, h.8, h.9, h.10, h.11, h.12, h.13, h.14, h.15, h.16, h.17, h.18, h.19, h.20, h.21⟩

/-- Arrivals keep the invariant (rule R52). -/
theorem Inv.arrive {s : State} (h : Inv s) (b : List Byte) : Inv (s.arrive b) :=
  ⟨h.1, h.2, h.3, h.4, h.5, h.6, h.7, h.8, h.9, h.10, h.11, h.12, h.13, h.14, h.15, h.16, h.17, h.18, h.19, fun hp => by have := h.20 hp; simp; omega, h.21⟩

/-- No error and no result stands while BUSY = 1 (rule R34). -/
theorem Inv.no_result {s : State} (h : Inv s) (hb : s.busy = true) : s.err = 0 ∧ s.esub = 0 ∧ s.rkind = 0 ∧ s.vbat = 0 ∧ s.rcnt = 0 ∧ ∀ i (hi : i < 256), s.rpos[i] = 0 := by
  have hd := h.busy_not_done hb
  have he : s.err = 0 := by by_contra hc; simpa [hd] using h.err_done hc
  have hk : s.rkind = 0 := by by_contra hc; simpa [hd] using h.result_done hc
  have hr : s.rcnt = 0 := h.rcnt_tag (by rw [hk]; decide)
  refine ⟨he, ?_, hk, h.vbat_tag (by rw [hk]; decide), hr, fun i hi => h.rpos_tail i hi (by simp [hr])⟩
  have := h.err_legal
  rw [he] at this
  simpa [legalErr] using this

/-- A phase other than IDLE means BUSY = 1 (rule R26). -/
theorem Inv.busy_of {s : State} (h : Inv s) (hp : s.ph ≠ .idle) : s.busy = true := by
  cases hb : s.busy with
  | true => rfl
  | false => exact absurd (h.idle_iff.mpr hb) hp

/-- An accepted START makes the invariant. -/
theorem accept_inv {op n : Byte} {f : List Byte} {e : Nat} {s : State}
    (hop : op = 0x03 ∨ op = 0x0F ∨ op = 0x14 ∨ op = 0x15) (hn : n.toNat ≤ countLimit op)
    (he : e = expectedLength op n.toNat) (he2 : e < 1024) (hf : f.length = frameLength op n.toNat) (hf2 : f.length ≤ 257)
    (hh : f.take 4 = [0x55, 0x55, BitVec.ofNat 8 (f.length - 2), op]) : Inv ((s.startClear op n).accept f e) := by
  have h512 : f.length % 512 = f.length := by omega
  constructor
  · simp only [State.accept_ph, State.accept_busy]; split <;> simp
  · simp
  · simp; rfl
  · simp
  · simp
  · simp
  · simp
  · simp
  · simp
  · intro i hi _; simp
  · simp
  · intro _; exact hop
  · intro _; exact hn
  · intro _; simp [← he]; omega
  · intro _; simp [← hf]; omega
  · intro _; rw [accept_txFrame _ _ hf2, State.accept_txlen, hh]; simp [h512]
  · simp only [State.accept_ph, State.startClear_echo, State.accept_echo]
    intro h; by_contra hc; simp [hc] at h
  · intro _; rfl
  · intro _; simp
  · simp only [State.accept_ph]; split <;> simp
  · simp only [State.accept_ph]; split <;> simp

/-- A START keeps the invariant if its accepted end does. -/
theorem startWith_inv {op n : Byte} {enc : Except Cause (List Byte × Nat)} {s : State} (h : Inv s)
    (hok : ∀ f e, enc = .ok (f, e) → Inv ((s.startClear op n).accept f e)) : Inv (startWith op n enc s) := by
  rcases startWith_cases op n enc s with ⟨_, e⟩ | ⟨_, c, _, e⟩ | ⟨_, f, ex, hf, e⟩
  · rw [e]; exact h
  · rw [e]; exact raise_inv (by simp)
  · rw [e]; exact hok f ex hf

/-- EXP of a query is from 5 to 761 (rules R5, R71). -/
theorem exp_bounds {s : State} (h : Inv s) (hq : isQuery s.echo = true) (hb : s.busy = true) : 5 ≤ s.exp.toNat ∧ s.exp.toNat ≤ 761 := by
  have := h.busy_exp hb
  have hc := h.busy_count hb
  simp [isQuery] at hq
  rcases hq with e | e <;> rw [e] at this hc <;> simp [expectedLength, countLimit] at this hc <;> omega

/-! ### Runs -/

/-- One more step of a run is that step and then the rest. -/
theorem run_succ {k : Nat} {s t : State} (h : step s = .next t) :
    Host.Core.run Sys2Proof.core (k + 1) s = Host.Core.run Sys2Proof.core k t := by
  have h' : Sys2Proof.core.step s = .next t := h
  simp only [Host.Core.run, h']

end Sys2Proof.Machine
end

