-- ==== Sys2Proof/Tests/Slice0.lean ====
section
/-! SUPPORT. The tests of this row: the smoke tests of WellFormed, words written out from the encodings of the spec, one step
of each instruction and of each phase with the results of `95_test_vectors.md`, and for every statement that has hypotheses
a witness that meets them. -/

namespace Sys2Proof.Tests

open Sys2Proof Sys2Proof.Machine

/-! ### WellFormed: each check refuses an ill-formed term, and its bound is accepted (rules R70, R81, R83, R84) -/

theorem test_wf_move_mismatch : (Instr.move [1, 2] [300] 100).wf = false := by decide
theorem test_wf_move_over : (Instr.move (List.replicate 84 1) (List.replicate 84 0) 0).wf = false := by decide +kernel
theorem test_wf_move_bound : (Instr.move (List.replicate 83 1) (List.replicate 83 0) 0).wf = true := by decide +kernel
theorem test_wf_unload_over : (Instr.unload (List.replicate 253 1)).wf = false := by decide +kernel
theorem test_wf_unload_bound : (Instr.unload (List.replicate 252 1)).wf = true := by decide +kernel
theorem test_wf_posq_over : (Instr.posq (List.replicate 253 1)).wf = false := by decide +kernel
theorem test_wf_posq_bound : (Instr.posq (List.replicate 252 1)).wf = true := by decide +kernel
theorem test_wf_posr_over : (Instr.posr 0 0 (List.replicate 253 ⟨0, 0⟩)).wf = false := by decide +kernel
theorem test_wf_posr_bound : (Instr.posr 0 0 (List.replicate 252 ⟨0, 0⟩)).wf = true := by decide +kernel

/-! ### Decoding and encoding: words written out from the spec (Parts 1 and 2 of `95_test_vectors.md`) -/

/-- M3. -/
theorem test_decode_move : decode .command [0x55, 0x55, 0x0B, 0x03, 0x02, 0x00, 0x01, 0x01, 0x00, 0x00, 0x02, 0xFF, 0xFF] =
    .ok (.move [1, 2] [0, 65535] 256, []) := by decide
/-- M7. -/
theorem test_encode_move : encode (.move [255] [65535] 65535) = [0x55, 0x55, 0x08, 0x03, 0x01, 0xFF, 0xFF, 0xFF, 0xFF, 0xFF] := by
  decide
/-- S1. -/
theorem test_decode_batq : decode .command [0x55, 0x55, 0x02, 0x0F] = .ok (.batq, []) := by decide
theorem test_encode_batq : encode .batq = [0x55, 0x55, 0x02, 0x0F] := by decide
/-- U-2, and a byte after the frame. -/
theorem test_decode_unload : decode .command [0x55, 0x55, 0x04, 0x14, 0x01, 0xFF, 0x55] = .ok (.unload [255], [0x55]) := by decide
/-- S2. -/
theorem test_encode_unload : encode (.unload [1, 2, 3]) = [0x55, 0x55, 0x06, 0x14, 0x03, 0x01, 0x02, 0x03] := by decide
/-- Q2. -/
theorem test_decode_posq : decode .command [0x55, 0x55, 0x04, 0x15, 0x01, 0x06] = .ok (.posq [6], []) := by decide
/-- Q4. -/
theorem test_encode_posq : encode (.posq [1, 2, 3, 4, 5, 6]) =
    [0x55, 0x55, 0x09, 0x15, 0x06, 0x01, 0x02, 0x03, 0x04, 0x05, 0x06] := by decide
/-- V3, V4: the length byte is kept and not looked at. -/
theorem test_decode_batr : decode (.response 0x0F 0) [0x55, 0x55, 0x04, 0x0F, 0x2C, 0x1D] = .ok (.batr 4 7468, []) ∧
    decode (.response 0x0F 0) [0x55, 0x55, 0xFF, 0x0F, 0xE8, 0x1C] = .ok (.batr 0xFF 7400, []) := by decide
/-- V11, V13: byte order, and echoes that are not looked at. -/
theorem test_decode_posr : decode (.response 0x15 3) [0x55, 0x55, 0x0C, 0x15, 0x03, 0x01, 0x00, 0x00, 0x02, 0x01, 0x00, 0x03, 0x00, 0x01] =
      .ok (.posr 0x0C 3 [⟨1, 0⟩, ⟨2, 1⟩, ⟨3, 256⟩], []) ∧
    decode (.response 0x15 2) [0x55, 0x55, 0x09, 0x15, 0x07, 0x63, 0xE8, 0x03, 0x62, 0xF4, 0x01] =
      .ok (.posr 0x09 7 [⟨0x63, 1000⟩, ⟨0x62, 500⟩], []) := by decide
/-- V5 to V8, T2, a BATQ with a wrong length byte, a count over the range, and frames that end early. -/
theorem test_decode_rejects :
    decode (.response 0x0F 0) [0xAA, 0x55, 0x04, 0x0F, 0xD0, 0x07] = .error .badSync ∧
    decode (.response 0x0F 0) [0x55, 0x54, 0x04, 0x0F, 0xD0, 0x07] = .error .badSync ∧
    decode (.response 0x0F 0) [0x55, 0x55, 0x04, 0x15, 0xD0, 0x07] = .error .badEcho ∧
    decode (.response 0x0F 0) [0x00, 0x00, 0x04, 0x15, 0xD0, 0x07] = .error .badSync ∧
    decode .command [0x55, 0x55, 0x02, 0x10] = .error .badOpcode ∧
    decode .command [0x55, 0x55, 0x03, 0x0F] = .error .badLength ∧
    decode .command [0x55, 0x55, 0x01, 0x03, 84, 0x00, 0x00] = .error .countRange ∧
    decode .command [0x55, 0x55, 0x06, 0x14, 0x03, 0x01, 0x02] = .error .truncated ∧
    decode (.response 0x14 1) [0x55, 0x55, 0x04, 0x14, 0x01] = .error .noResponse ∧ decode .command [0x55] = .error .truncated := by
  decide
/-- The strict parser refuses a length byte that lies and a byte after the frame. -/
theorem test_parse_strict : parseCommand [0x55, 0x55, 0x06, 0x14, 0x03, 0x01, 0x02, 0x03] = .ok (.unload [1, 2, 3]) ∧
    parseCommand [0x55, 0x55, 0x07, 0x14, 0x03, 0x01, 0x02, 0x03] = .error .badLength ∧
    parseCommand [0x55, 0x55, 0x06, 0x14, 0x03, 0x01, 0x02, 0x03, 0x00] = .error .badLength := by decide
/-- The rows of `opcode_table.json` whose match decodes to their own instruction; POSR's match is POSQ's (log entry 6). -/
theorem test_table_words : decodeTableWord 32 0x55550003 = some (.move [] [] 0) ∧ decodeTableWord 32 0x5555020F = some .batq ∧
    decodeTableWord 32 0x55550014 = some (.unload []) ∧ decodeTableWord 32 0x55550015 = some (.posq []) ∧
    decodeTableWord 32 0x5555000F = some (.batr 0 0) ∧ decodeTableWord 32 0x55550010 = none := by decide +kernel

/-! ### One step -/

/-- The reset state with these moves to come. -/
def withMoves (ms : List Move) : State := { State.reset with sched := ms }

/-- A battery query in this phase, with two polls at most behind the first, and these bytes inbound. -/
def battery (ph : Phase) (rxq : List Byte) (ms : List Move) : State :=
  { State.reset with
    busy := true, ph := ph, echo := 0x0F, exp := 6, tmo := 2, txbuf := loadFrame [0x55, 0x55, 0x02, 0x0F] State.reset.txbuf,
    txlen := 4, rxq := rxq, sched := ms }

/-- A battery query in CHECK of these bytes. -/
def batteryCheck (r : List Byte) : State := { battery .check [] [.engine Draw.ok] with rxbuf := r }

/-- A position query of `n` ids in CHECK of these bytes. -/
def positionCheck (n : Byte) (r : List Byte) : State :=
  { battery .check [] [.engine Draw.ok] with echo := 0x15, nlat := n, exp := BitVec.ofNat 10 (3 * n.toNat + 5), rxbuf := r }

/-- What a step leaves, read by `f`; nothing where it stops. -/
def reads {α : Type} (f : State → α) (s : State) : Option α :=
  match step s with
  | .next t => some (f t)
  | .fault _ => none
  | .refused _ => none

/-- The status pair, the error pair, the phase. -/
def outcome (t : State) : BitVec 2 × BitVec 3 × BitVec 3 × Phase := (t.status, t.err, t.esub, t.ph)

/-- S3 and its expected length; the frame is in TXBUF. -/
theorem test_start_move :
    reads (fun t => (outcome t, t.txFrame, t.exp, t.nlat)) (placeInstr (.move [5] [500] 1000) State.reset) =
      some ((1, 0, 0, .send), [0x55, 0x55, 0x08, 0x03, 0x01, 0xE8, 0x03, 0x05, 0xF4, 0x01], 0, 1) := by decide +kernel
/-- M10: nothing is sent. -/
theorem test_start_move_mismatch : reads (fun t => (outcome t, t.txlog, t.txlen)) (placeInstr (.move [1, 2] [300] 100) State.reset) =
    some ((2, 1, 2, .idle), [], 0) := by decide +kernel
/-- B1. -/
theorem test_start_batq : reads (fun t => (t.txFrame, t.exp, outcome t)) { placeInstr .batq State.reset with nid := 200, npos := 3 } =
    some ([0x55, 0x55, 0x02, 0x0F], 6, 1, 0, 0, .flush) := by decide +kernel
/-- U-3: NPOS differs from NID. -/
theorem test_start_unload : reads (fun t => (t.txFrame, outcome t)) (placeInstr (.unload [1, 2, 3]) State.reset) =
    some ([0x55, 0x55, 0x06, 0x14, 0x03, 0x01, 0x02, 0x03], 1, 0, 0, .send) := by decide +kernel
/-- U-5. -/
theorem test_start_unload_range :
    reads outcome { withMoves [.write (.ctrl true)] with cmd := 0x14, nid := 253 } = some (2, 1, 3, .idle) := by decide +kernel
/-- Q3. -/
theorem test_start_posq : reads (fun t => (t.txFrame, t.exp, outcome t)) (placeInstr (.posq [1, 2]) State.reset) =
    some ([0x55, 0x55, 0x05, 0x15, 0x02, 0x01, 0x02], 11, 1, 0, 0, .flush) := by decide +kernel
/-- T4: the old result is gone. -/
theorem test_start_clears :
    reads (fun t => (outcome t, t.rkind, t.vbat))
      { withMoves [.write (.ctrl true)] with cmd := 0x03, nid := 2, npos := 1, rkind := 1, vbat := 2000, done := true } =
      some ((2, 1, 2, .idle), 0, 0) := by decide +kernel
/-- S4. -/
theorem test_check_batr : reads (fun t => (t.vbat, t.rkind, outcome t)) (batteryCheck [0x55, 0x55, 0x04, 0x0F, 0xD0, 0x07]) =
    some (2000, 1, 2, 0, 0, .idle) := by decide +kernel
/-- V8: sync is reported before echo. -/
theorem test_check_badSync : reads (fun t => (t.vbat, t.rkind, outcome t)) (batteryCheck [0x00, 0x00, 0x04, 0x15, 0xD0, 0x07]) =
    some (0, 0, 2, 4, 2, .idle) := by decide +kernel
/-- S5. -/
theorem test_check_posr :
    reads (fun t => (t.rpos[0], t.rpos[1], t.rpos[2], t.rcnt, t.rkind))
      (positionCheck 2 [0x55, 0x55, 0x0B, 0x15, 0x02, 0x01, 0xE8, 0x03, 0x02, 0xF4, 0x01]) =
      some (1000, 500, 0, 2, 2) := by decide +kernel
/-- V14. -/
theorem test_check_badEcho :
    reads outcome (positionCheck 2 [0x55, 0x55, 0x09, 0x0F, 0x02, 0x01, 0xE8, 0x03, 0x02, 0xF4, 0x01]) =
      some (2, 4, 3, .idle) := by decide +kernel
/-- F2 and F3. -/
theorem test_flush : reads (fun t => (t.rxq, outcome t)) (battery .flush [0xAA, 0xBB, 0xCC] [.engine Draw.ok]) = some ([], 1, 0, 0, .send) ∧
    reads (fun t => (t.rxq, outcome t)) (battery .flush [0xAA, 0xBB, 0xCC] [.engine ⟨.ok, .short 1⟩]) =
      some ([0xBB, 0xCC], 2, 2, 2, .idle) := by decide +kernel
/-- F5 and F7. -/
theorem test_send : reads (fun t => (t.txlog, outcome t)) (battery .send [] [.engine Draw.ok]) = some ([0x55, 0x55, 0x02, 0x0F], 1, 0, 0, .poll) ∧
    reads (fun t => (t.txlog, outcome t)) (battery .send [] [.engine ⟨.fail 3, .ok⟩]) = some ([0x55, 0x55, 0x02], 2, 2, 3, .idle) := by
  decide +kernel
/-- F8 at its second sample, F12 at its last. -/
theorem test_poll : reads (fun t => (t.pcnt, t.ph)) { battery .poll [1, 2, 3] [.engine Draw.ok] with pcnt := 1 } = some (2, .poll) ∧
    reads outcome { battery .poll [1, 2, 3, 4, 5, 6, 7] [.engine Draw.ok] with pcnt := 2 } = some (2, 3, 1, .idle) := by decide +kernel
/-- F13 and F15. -/
theorem test_read :
    reads (fun t => (t.rxbuf, t.rxq, t.ph)) (battery .read [0x55, 0x55, 0x04, 0x0F, 0xD0, 0x07, 0x99] [.engine Draw.ok]) =
      some ([0x55, 0x55, 0x04, 0x0F, 0xD0, 0x07], [0x99], .check) ∧
    reads outcome (battery .read [0x55, 0x55, 0x04, 0x0F, 0xD0, 0x07] [.engine ⟨.ok, .fail 2⟩]) = some (2, 2, 4, .idle) := by decide +kernel
/-- M5: the masking is done at the register. -/
theorem test_mask : reads State.dur (withMoves [.write (.dur 70000)]) = some 4464 ∧
    reads (fun t => t.poss[255]) (withMoves [.write (.pos 255 66036)]) = some 500 := by decide +kernel
/-- The very next step runs the instruction of a table word. -/
theorem test_withFetchWord : reads (fun t => (t.txFrame, t.ph)) (State.reset.withFetchWord 32 0x5555020F) = some ([0x55, 0x55, 0x02, 0x0F], .flush) ∧
    reads (fun t => (t.rkind, t.vbat)) (State.reset.withFetchWord 64 0xD00700005555000F) = some (1, 2000) := by decide +kernel

/-! ### Witnesses: for each statement with hypotheses, states and operands that meet them -/

/-- An accepted START of a BATQ, with these moves to come. -/
def startedBatq (ms : List Move) (rxq : List Byte) : State :=
  (({ withMoves ms with tmo := 0, rxq := rxq } : State).startClear 0x0F 0).accept (encode .batq) 6

/-- An accepted START of a POSQ of ids 1 and 2. -/
def startedPosq (ms : List Move) (rxq : List Byte) : State :=
  (({ withMoves ms with rxq := rxq } : State).startClear 0x15 2).accept (encode (.posq [1, 2])) 11

/-- An accepted START of an UNLOAD of no id. -/
def startedUnload : State := ((withMoves []).startClear 0x14 0).accept (encode (.unload [])) 0

/-- A block in IDLE after a failed START, with this CMD and these moves to come. -/
def idleAfterError (op : Byte) (ms : List Move) : State := raise .badOpcode { withMoves ms with cmd := op }

theorem startedBatq_inv (ms : List Move) (q : List Byte) : Inv (startedBatq ms q) :=
  accept_inv (.inr (.inl rfl)) (by decide) (by decide) (by decide) (by decide) (by decide) (by decide)

theorem startedPosq_inv (ms : List Move) (q : List Byte) : Inv (startedPosq ms q) :=
  accept_inv (.inr (.inr (.inr rfl))) (by decide) (by decide) (by decide) (by decide) (by decide) (by decide)

theorem startedUnload_inv : Inv startedUnload :=
  accept_inv (.inr (.inr (.inl rfl))) (by decide) (by decide) (by decide) (by decide) (by decide) (by decide)

theorem idleAfterError_inv (op : Byte) (ms : List Move) : Inv (idleAfterError op ms) := raise_inv (Nat.zero_le 761)

theorem witness_IdleBlockWaits : (State.reset.ph = .idle ∧ State.reset.sched = []) ∧
    (withMoves [.engine Draw.ok]).ph = .idle ∧ (withMoves [.engine Draw.ok]).sched = .engine Draw.ok :: [] := ⟨⟨rfl, rfl⟩, rfl, rfl⟩

theorem witness_HostWriteStoresAndMasks :
    (withMoves [.write (.dur 65536)]).busy = false ∧ (withMoves [.write (.dur 65536)]).sched = .write (.dur 65536) :: [] ∧
      (withMoves [.write (.pos 255 65535)]).sched = .write (.pos 255 65535) :: [] ∧
      (withMoves [.write (.id 0 255)]).sched = .write (.id 0 255) :: [] ∧
      (withMoves [.write (.cmd 0)]).sched = .write (.cmd 0) :: [] ∧ (withMoves [.write (.nid 255)]).sched = .write (.nid 255) :: [] ∧
      (withMoves [.write (.npos 255)]).sched = .write (.npos 255) :: [] ∧
      (withMoves [.write (.tmo 0xFFFFFFFF)]).sched = .write (.tmo 0xFFFFFFFF) :: [] := ⟨rfl, rfl, rfl, rfl, rfl, rfl, rfl, rfl⟩

theorem witness_RegisterReadsBackWhatWasWritten :
    (Write.ofNumber 0 255 = some (.cmd 255) ∧ (withMoves [.write (.cmd 255)]).busy = false ∧
      (withMoves [.write (.cmd 255)]).sched = .write (.cmd 255) :: []) ∧
    Write.ofNumber 3 65536 = some (.dur 65536) ∧ Write.ofNumber 4 0 = some (.tmo 0) ∧ Write.ofNumber 256 255 = some (.id 0 255) ∧
    Write.ofNumber 511 0 = some (.id 255 0) ∧ Write.ofNumber 512 65535 = some (.pos 0 65535) ∧
    Write.ofNumber 767 70000 = some (.pos 255 70000) := ⟨⟨rfl, rfl, rfl⟩, rfl, rfl, rfl, rfl, rfl, rfl⟩

theorem witness_HostReadsTheRegisterTable :
    0 < 256 ∧ 255 < 256 ∧ (12 ≤ 12 ∧ 12 < 256 ∨ 1024 ≤ 12) ∧ (12 ≤ 255 ∧ 255 < 256 ∨ 1024 ≤ 255) ∧
      (12 ≤ 1024 ∧ 1024 < 256 ∨ 1024 ≤ 1024) := by decide

theorem witness_RegisterNumbersSelectTheirWrites :
    255 < 256 ∧ 0xFFFFFFFF < 2 ^ 32 ∧ (12 ≤ 12 ∧ 12 < 256 ∨ 1024 ≤ 12) ∧ (12 ≤ 1024 ∧ 1024 < 256 ∨ 1024 ≤ 1024) ∧
      ((2 ≤ 2 ∨ 256 ≤ 2 ∧ 2 < 512) ∧ 256 ≤ 256) ∧ (511 ≤ 2 ∨ 256 ≤ 511 ∧ 511 < 512) ∧ 2 ^ 32 ≤ 0x100000000 ∧ 2 ≤ 2 := by decide

theorem witness_HostAccessWithoutEffect :
    (withMoves [.read 10]).sched = .read 10 :: [] ∧
    ((battery .poll [] [.write (.ctrl true)]).sched = .write (.ctrl true) :: [] ∧ (battery .poll [] [.write (.ctrl true)]).busy = true) ∧
    (withMoves [.write (.ctrl false)]).sched = .write (.ctrl false) :: [] ∧
    (withMoves [.write (.readOnly (.rpos 255))]).sched = .write (.readOnly (.rpos 255)) :: [] ∧
    (Instr.posq []).key = .command := ⟨rfl, ⟨rfl, rfl⟩, rfl, rfl, rfl⟩

theorem witness_EngineNeverWritesOperands :
    ∃ t, (∀ w ms, (battery .send [] [.engine Draw.ok]).sched ≠ .write w :: ms) ∧
      (∀ ms, (battery .send [] [.engine Draw.ok]).sched ≠ .reset :: ms) ∧ step (battery .send [] [.engine Draw.ok]) = .next t :=
  ⟨_, by simp [battery], by simp [battery], rfl⟩

theorem witness_ResetEventKeepsTheInboundBuffer : (battery .poll [0x11] [.reset]).sched = .reset :: [] := rfl

theorem witness_DecodeUndoesEncode : (Instr.move [255] [65535] 65535).wf = true ∧ (Instr.posr 0xFF 0xFF []).wf = true := by decide

theorem witness_ReverseParserIsExact :
    ((Instr.unload [255]).wf = true ∧ (Instr.unload [255]).key = .command) ∧
    parseCommand [0x55, 0x55, 0x02, 0x0F] = .ok .batq := by decide

theorem witness_ResponseDecodesToItsOwnBytes :
    decode (.response 0x15 0) [0x55, 0x55, 0x03, 0x15, 0x00] = .ok (.posr 3 0 [], []) ∧
    decode (.response 0x0F 255) [0x55, 0x55, 0x04, 0x0F, 0xFF, 0xFF, 0x99] = .ok (.batr 4 65535, [0x99]) := by decide

theorem witness_OpcodeTableRowsAgree :
    decode .command [0x55, 0x55, 0x02, 0x0F] = .ok (.batq, []) ∧
    (Instr.move [] [] 0).row.fits (encode (.move [] [] 0)) = true ∧ (Instr.move [1] [2] 3).row.fits (encode (.move [] [] 0)) = true ∧
    (Instr.move [] [] 0).row.isCommand = (Instr.move [1] [2] 3).row.isCommand := by decide

theorem witness_MoveEncodesItsFrame :
    State.reset.busy = false ∧ ([] : List Byte).length = ([] : List Half).length ∧
    ((List.replicate 83 (1 : Byte)).length = (List.replicate 83 (0 : Half)).length ∧ (List.replicate 83 (1 : Byte)).length ≤ 83) ∧
    ([1, 2] : List Byte).length ≠ ([300] : List Half).length ∧
    ((List.replicate 84 (1 : Byte)).length = (List.replicate 84 (0 : Half)).length ∧ 83 < (List.replicate 84 (1 : Byte)).length) := by
  decide +kernel

theorem witness_BatqEncodesItsFrame : State.reset.busy = false := rfl

theorem witness_UnloadEncodesItsFrame :
    State.reset.busy = false ∧ (List.replicate 252 (1 : Byte)).length ≤ 252 ∧ 252 < (List.replicate 253 (1 : Byte)).length := by
  decide +kernel

theorem witness_PosqEncodesItsFrame :
    State.reset.busy = false ∧ ([] : List Byte).length ≤ 252 ∧ (List.replicate 252 (1 : Byte)).length ≤ 252 ∧
      252 < (List.replicate 253 (1 : Byte)).length := by
  decide +kernel

/-- T1 and T2. -/
theorem witness_IllegalOpcodeIsRefusedAtStart : ∀ op ∈ ([0x00, 0x10, 0x16, 0xFF] : List Byte),
    (idleAfterError op [.write (.ctrl true)]).sched = .write (.ctrl true) :: [] ∧
    (idleAfterError op [.write (.ctrl true)]).busy = false ∧ (idleAfterError op [.write (.ctrl true)]).cmd = op ∧
    op ≠ 0x03 ∧ op ≠ 0x0F ∧ op ≠ 0x14 ∧ op ≠ 0x15 := by
  intro op h
  refine ⟨rfl, rfl, rfl, ?_⟩
  revert op
  decide

/-- T3, M10, M9, M8, U-5, Q5: each clause at a boundary. -/
theorem witness_StartChecksThenEncodes :
    let s : Byte → Byte → Byte → State := fun op n m => { withMoves [] with cmd := op, nid := n, npos := m };
    (s 0x16 2 1).busy = false ∧
    ((s 0x16 2 1).cmd ≠ 0x03 ∧ (s 0x16 2 1).cmd ≠ 0x0F ∧ (s 0x16 2 1).cmd ≠ 0x14 ∧ (s 0x16 2 1).cmd ≠ 0x15) ∧
    ((s 0x03 2 1).cmd = 0x03 ∧ (s 0x03 2 1).nid ≠ (s 0x03 2 1).npos) ∧
    ((s 0x03 84 84).cmd = 0x03 ∧ (s 0x03 84 84).nid = (s 0x03 84 84).npos ∧ 83 < (s 0x03 84 84).nid.toNat) ∧
    ((s 0x14 253 0).cmd = 0x14 ∧ 252 < (s 0x14 253 0).nid.toNat) ∧
    ((s 0x03 83 83).cmd = 0x03 ∧ (s 0x03 83 83).nid = (s 0x03 83 83).npos ∧ (s 0x03 83 83).nid.toNat ≤ 83) ∧
    ((s 0x15 252 0).cmd = 0x15 ∧ (s 0x15 252 0).nid.toNat ≤ 252) := by decide

/-- U-1 twice, with other positions and another count of positions behind it. -/
theorem witness_FrameDependsOnOperandsOnly :
    ∃ s₁ s₂ t₁ t₂ : State, s₁.busy = false ∧ s₂.busy = false ∧ s₁.cmd = s₂.cmd ∧ s₁.nid = s₂.nid ∧ s₁.dur = s₂.dur ∧
      (∀ (i : Nat) (h : i < 256), i < s₁.nid.toNat → s₁.ids[i] = s₂.ids[i] ∧ s₁.poss[i] = s₂.poss[i]) ∧
      hostStart s₁ = .next t₁ ∧ hostStart s₂ = .next t₂ ∧ t₁.busy = true ∧ t₂.busy = true ∧ s₁.npos ≠ s₂.npos :=
  ⟨{ withMoves [] with cmd := 0x14 }, { withMoves [] with cmd := 0x14, npos := 7, err := 1 }, _, _, rfl, rfl, rfl, rfl, rfl,
    fun i h hi => absurd hi (by simp [withMoves, State.reset]), rfl, rfl, rfl, rfl, by decide⟩

/-- The state before a command line. -/
def beforeLine (i : Instr) : State := withMoves ((operandWrites i).map Move.write)

theorem witness_CommandLineLoadsItsOperands :
    ((Instr.move [255] [65535] 65535).key = .command ∧ (Instr.move [255] [65535] 65535).count ≤ 255 ∧
      (∀ ids ps d, Instr.move [255] [65535] 65535 = .move ids ps d → ps.length ≤ 255) ∧
      (beforeLine (.move [255] [65535] 65535)).busy = false ∧
      (beforeLine (.move [255] [65535] 65535)).sched = (operandWrites (.move [255] [65535] 65535)).map Move.write ++ []) ∧
    (Instr.posq (List.replicate 255 9)).count ≤ 255 := by
  refine ⟨⟨rfl, by decide, ?_, rfl, ?_⟩, by decide +kernel⟩
  · intro ids ps d h
    cases h
    decide
  · simp [beforeLine, withMoves]

theorem witness_StepRunsTheDecodedInstruction :
    ((idleAfterError 0x0F [.write (.ctrl true)]).sched = .write (.ctrl true) :: [] ∧
      (idleAfterError 0x0F [.write (.ctrl true)]).busy = false ∧
      fetchCommand (idleAfterError 0x0F [.write (.ctrl true)]) = some .batq) ∧
    (let s := batteryCheck [0x55, 0x55, 0x04, 0x0F, 0xD0, 0x07];
      s.sched = .engine Draw.ok :: [] ∧ s.ph = .check ∧
        decode (.response s.echo s.nlat.toNat) s.rxbuf = .ok (.batr 4 2000, [])) ∧
    (let s : State := { batteryCheck [0x55, 0x55, 0x04, 0x0F, 0xD0, 0x07] with sched := [] };
      s.sched = [] ∧ s.ph = .check ∧ decode (.response s.echo s.nlat.toNat) s.rxbuf = .ok (.batr 4 2000, [])) :=
  ⟨⟨rfl, rfl, rfl⟩, ⟨rfl, rfl, rfl⟩, rfl, rfl, rfl⟩

theorem witness_StepTakesOneMove :
    (battery .flush [] [.engine Draw.ok]).sched = .engine Draw.ok :: [] ∧
    ((idleAfterError 0x10 [.write (.ctrl true)]).sched = .write (.ctrl true) :: [] ∧
      (idleAfterError 0x10 [.write (.ctrl true)]).busy = false) ∧
    (battery .read [] []).sched = [] ∧ (battery .read [] []).ph ≠ .idle := ⟨rfl, ⟨rfl, rfl⟩, rfl, by decide⟩

theorem witness_PlacedInstructionRunsNext : ∀ i ∈ ([.move [1] [2] 3, .batq, .unload [255], .posq [], .batr 4 2000, .posr 3 0 []] : List Instr),
    i.wf = true := by decide

theorem witness_BatrDeliversMillivolts : (batteryCheck []).ph = .check ∧ (batteryCheck []).echo = 0x0F := ⟨rfl, rfl⟩

theorem witness_PosrDeliversPositions :
    (positionCheck 1 []).ph = .check ∧ (positionCheck 1 []).echo = 0x15 ∧
    (positionCheck 0 []).nlat.toNat ≤ ([] : List PosEntry).length ∧
    (positionCheck 1 []).nlat.toNat ≤ [PosEntry.mk 6 65535].length ∧ ([] : List PosEntry).length < (positionCheck 1 []).nlat.toNat := by
  decide

theorem witness_ResponseNeedsItsRequest :
    ((Instr.batr 4 2000).row.isCommand = false ∧ (positionCheck 1 []).ph = .check ∧
      (Instr.batr 4 2000).opcode ≠ (positionCheck 1 []).echo) ∧
    (Instr.posr 3 0 []).row.isCommand = false ∧ (battery .poll [] []).ph ≠ .check := by decide

theorem witness_CheckDecidesByIndex :
    (let s := batteryCheck [0x55, 0x54, 0x04, 0x0F, 0xD0, 0x07];
      s.ph = .check ∧ s.echo = 0x0F ∧ s.rxbuf.length = 6 ∧ s.rxbuf[1]? ≠ some 0x55) ∧
    (let s := batteryCheck [0x55, 0x55, 0x04, 0x15, 0xD0, 0x07];
      s.rxbuf.length = 6 ∧ s.rxbuf[0]? = some 0x55 ∧ s.rxbuf[1]? = some 0x55 ∧ s.rxbuf[3]? ≠ some s.echo) ∧
    (let s := batteryCheck [0x55, 0x55, 0xFF, 0x0F, 0xFF, 0xFF];
      s.rxbuf.length = 6 ∧ s.rxbuf[0]? = some 0x55 ∧ s.rxbuf[1]? = some 0x55 ∧ s.rxbuf[3]? = some s.echo) ∧
    (let s := positionCheck 0 [0x55, 0x55, 0x03, 0x15, 0x00];
      s.echo = 0x15 ∧ s.rxbuf.length = 3 * s.nlat.toNat + 5 ∧ s.rxbuf[3]? = some s.echo) ∧
    (let s := positionCheck 1 [0x55, 0x55, 0x06, 0x15, 0x01, 0x06, 0xFF, 0xFF];
      s.echo = 0x15 ∧ s.rxbuf.length = 3 * s.nlat.toNat + 5 ∧ s.rxbuf[3]? = some s.echo) := by decide

theorem witness_FlushDiscardsWhatOneSampleSaw :
    ((battery .flush [] []).ph = .flush ∧ (battery .flush [] []).rxq = []) ∧ (battery .flush [0xAA] []).rxq ≠ [] ∧
    Draw.ok.rx = .ok ∧ (Draw.mk .ok (.short 5)).rx = .short 5 ∧ (Draw.mk .ok (.fail 0)).rx = .fail 0 := by decide

theorem witness_SendHandsOverTheFrame :
    (battery .send [] []).ph = .send ∧ Draw.ok.tx = .ok ∧ (battery .send [] []).echo = 0x0F ∧
    (startedUnload.ph = .send ∧ startedUnload.echo ≠ 0x0F ∧ startedUnload.echo ≠ 0x15) ∧ (Draw.mk (.fail 0) .ok).tx = .fail 0 := by decide

/-- F10, F11, F12 at its last sample, F9 at its first. -/
theorem witness_PollTestsEquality :
    ((battery .poll [1, 2, 3, 4, 5, 6] []).ph = .poll ∧
      (battery .poll [1, 2, 3, 4, 5, 6] []).rxq.length = (battery .poll [1, 2, 3, 4, 5, 6] []).exp.toNat) ∧
    (let s : State := { battery .poll [1, 2, 3, 4, 5, 6, 7] [] with pcnt := 2 }; s.rxq.length ≠ s.exp.toNat ∧ s.pcnt = s.tmo) ∧
    (let s := battery .poll [1, 2, 3, 4, 5] []; s.rxq.length ≠ s.exp.toNat ∧ s.pcnt ≠ s.tmo ∧ s.pcnt.toNat < s.tmo.toNat) := by decide

theorem witness_ReadTakesExactlyTheExpectedBytes :
    (let s := battery .read [1, 2, 3, 4, 5, 6] []; s.ph = .read ∧ 1 ≤ s.exp.toNat ∧ s.exp.toNat ≤ s.rxq.length) ∧
    Draw.ok.rx = .ok ∧ (Draw.mk .ok (.short 6)).rx = .short 6 ∧ (Draw.mk .ok (.fail 9)).rx = .fail 9 := by decide

theorem witness_ArrivalAppendsAtTheTail :
    (withMoves [.arrive []]).sched = .arrive [] :: [] ∧
    (battery .poll [0x11] [.arrive [0x55, 0x56]]).sched = .arrive [0x55, 0x56] :: [] := ⟨rfl, rfl⟩

theorem witness_TransportOutcomesAreExactlyTheContract :
    1 ≤ 1 ∧ (1 ≤ (battery .read [1] []).rxq.length) ∧ (0 < 1 ∧ 0 ≤ (battery .read [1] []).rxq.length) ∧
    (1 ≤ (battery .read [1] []).rxq.length) ∧ ([1] : List Byte) <+: [1, 2] := by decide

theorem witness_StepKeepsTheInvariant :
    ∃ t, Inv (startedBatq [.engine Draw.ok] []) ∧ step (startedBatq [.engine Draw.ok] []) = .next t :=
  ⟨_, startedBatq_inv _ _, rfl⟩

theorem witness_NothingStopsTheMachine : Inv (startedPosq [] [0x11]) ∧ Inv (idleAfterError 0x03 []) :=
  ⟨startedPosq_inv _ _, idleAfterError_inv _ _⟩

theorem witness_PhaseChangesOnlyByTheTable :
    (∃ s t, Inv s ∧ step s = .next t ∧ t.ph ≠ s.ph ∧ (∀ ms, s.sched ≠ .reset :: ms) ∧ s.ph = .idle) ∧
    ∃ s t, Inv s ∧ step s = .next t ∧ t.ph ≠ s.ph ∧ (∀ ms, s.sched ≠ .reset :: ms) ∧ s.ph ≠ .idle :=
  ⟨⟨idleAfterError 0x0F [.write (.ctrl true)], _, idleAfterError_inv _ _, rfl, by decide, by simp [idleAfterError, withMoves], rfl⟩,
    ⟨startedBatq [.engine Draw.ok] [], _, startedBatq_inv _ _, rfl, by decide, by simp [startedBatq, withMoves], by decide⟩⟩

theorem witness_StreamsMoveOnlyInTheirPhases :
    ∃ t, step (battery .send [] [.engine Draw.ok]) = .next t ∧ ∀ ms, (battery .send [] [.engine Draw.ok]).sched ≠ .reset :: ms :=
  ⟨_, rfl, by simp [battery]⟩

theorem witness_EveryCommandEnds :
    (Inv startedUnload ∧ startedUnload.busy = true ∧ startedUnload.echo = 0x14 ∧
      (if startedUnload.echo = 0x03 ∨ startedUnload.echo = 0x14 then 1 else startedUnload.tmo.toNat + 5) ≤
        [(([] : List Byte), Draw.ok)].length) ∧
    (Inv (startedBatq [] [0x11]) ∧ (startedBatq [] [0x11]).busy = true ∧
      (if (startedBatq [] [0x11]).echo = 0x03 ∨ (startedBatq [] [0x11]).echo = 0x14 then 1 else (startedBatq [] [0x11]).tmo.toNat + 5) ≤
        (List.replicate 5 (([] : List Byte), Draw.ok)).length) :=
  ⟨⟨startedUnload_inv, rfl, rfl, by decide⟩, startedBatq_inv _ _, rfl, by decide⟩

theorem witness_LevelAboveExpectedTimesOut :
    (let s := battery .poll [1, 2, 3, 4, 5, 6, 7] [];
      s.ph = .poll ∧ s.exp.toNat < s.rxq.length ∧ s.pcnt.toNat ≤ s.tmo.toNat ∧
        (List.replicate 3 (([0x55] : List Byte), Draw.ok)).length = s.tmo.toNat - s.pcnt.toNat + 1) ∧
    (let s : State := { battery .poll [1, 2, 3, 4, 5, 6, 7] [] with pcnt := 2 };
      s.pcnt.toNat ≤ s.tmo.toNat ∧ [(([] : List Byte), Draw.ok)].length = s.tmo.toNat - s.pcnt.toNat + 1) := by decide

/-- The moves of a whole exchange from FLUSH on. -/
def exchange (r : List Byte) : List Move :=
  [.engine Draw.ok, .engine Draw.ok, .arrive r, .engine Draw.ok, .engine Draw.ok, .engine Draw.ok]

theorem witness_QueryReturnsTheDecodedResponse :
    (let r : List Byte := [0x55, 0x55, 0x04, 0x0F, 0xD0, 0x07];
      let s := startedBatq (exchange r) [0x00, 0xFF];
      Inv s ∧ s.ph = .flush ∧ r.length = s.exp.toNat ∧ r[0]? = some 0x55 ∧ r[1]? = some 0x55 ∧ r[3]? = some s.echo ∧
        s.sched = exchange r ++ [] ∧ s.echo = 0x0F) ∧
    (let r : List Byte := [0x55, 0x55, 0x0B, 0x15, 0x02, 0x01, 0xE8, 0x03, 0x02, 0xF4, 0x01];
      let s := startedPosq (exchange r) [];
      Inv s ∧ s.ph = .flush ∧ r.length = s.exp.toNat ∧ r[0]? = some 0x55 ∧ r[1]? = some 0x55 ∧ r[3]? = some s.echo ∧
        s.sched = exchange r ++ [] ∧ s.echo = 0x15) :=
  ⟨⟨startedBatq_inv _ _, rfl, rfl, rfl, rfl, rfl, rfl, rfl⟩, startedPosq_inv _ _, rfl, rfl, rfl, rfl, rfl, rfl, rfl⟩

theorem witness_HiddenLeftoversAreNeverObservable :
    ∃ s₁ s₂ t₁, s₁.ph = .idle ∧ s₂.ph = .idle ∧ SameToTheOutside s₁ s₂ ∧ Host.Core.run Sys2Proof.core 1 s₁ = .next t₁ ∧
      s₁.txlen ≠ s₂.txlen ∧ s₁.rxbuf ≠ s₂.rxbuf :=
  ⟨idleAfterError 0x0F [.write (.ctrl true)],
    { idleAfterError 0x0F [.write (.ctrl true)] with txlen := 7, rxbuf := [0x55], nlat := 3, exp := 11, pcnt := 2, echo := 0x15 },
    _, rfl, rfl, ⟨⟨rfl, rfl, rfl, rfl, rfl, rfl, rfl⟩, rfl, rfl, rfl, rfl, rfl, rfl, rfl, rfl, ⟨rfl, rfl⟩, ⟨rfl, rfl⟩⟩, rfl,
    by decide, by decide⟩

end Sys2Proof.Tests
end

/-! ### What a step is (family 00_scope) -/

namespace Sys2Proof.Machine

theorem engineAlone_running {s : State} (h : s.ph ≠ .idle) :
    engineAlone s = engineStep (Config.freeDraw s.draws) { s with draws := s.draws + 1 } :=
  if_neg h

/-- Settles O47, by the equations of `step` for a scheduled move and for an empty schedule. -/
theorem stepTakesOneMove : Obligations.StepTakesOneMove := by
  intro s
  refine ⟨fun d ms h => step_cons h, fun ms h hb => ?_, fun h hp => ?_⟩
  · calc step s = hostWrite (.ctrl true) { s with sched := ms } := step_cons h
      _ = hostStart { s with sched := ms } := hostWrite_start hb
  · rw [step_nil h, engineAlone_running hp]

/-! ### Hidden leftovers (rules R8, R36)

Two runs are compared by a simulation. While the block waits in IDLE, every hidden register may differ; from an accepted START
on only TXBUF may, and only behind the frame. -/

/-- The state with the hidden registers of `h`. PH, which tells whether the block waits, stays that of the state. -/
def State.withHidden (s h : State) : State :=
  { s with
    txbuf := h.txbuf, txlen := h.txlen, echo := h.echo, nlat := h.nlat, exp := h.exp, pcnt := h.pcnt, rxbuf := h.rxbuf }

/-- The state with other bytes in TXBUF. -/
def State.withTxbuf (s : State) (b : Vector Byte 257) : State := { s with txbuf := b }

/-- The simulation: two states that wait with any hidden registers, or two states that differ in TXBUF alone and hold the
same frame there. -/
inductive Alike : State → State → Prop where
  | waiting (s h : State) (hp : s.ph = .idle) : Alike s (s.withHidden h)
  | running (s : State) (b : Vector Byte 257) (hf : (s.withTxbuf b).txFrame = s.txFrame) : Alike s (s.withTxbuf b)

/-- Both outcomes are a next state, and the two are alike; or both stop for the same reason. -/
inductive AlikeOutcome :
    Host.Outcome State Fault Refusal → Host.Outcome State Fault Refusal → Prop where
  | next {s t : State} (h : Alike s t) : AlikeOutcome (.next s) (.next t)
  | fault (r : Fault) : AlikeOutcome (.fault r) (.fault r)
  | refused (r : Refusal) : AlikeOutcome (.refused r) (.refused r)

@[simp] theorem State.withHidden_ph (s h : State) : (s.withHidden h).ph = s.ph := rfl

section
variable (s : State) (b : Vector Byte 257)

@[simp] theorem State.withTxbuf_ph : (s.withTxbuf b).ph = s.ph := rfl
@[simp] theorem State.withTxbuf_tmo : (s.withTxbuf b).tmo = s.tmo := rfl
@[simp] theorem State.withTxbuf_echo : (s.withTxbuf b).echo = s.echo := rfl
@[simp] theorem State.withTxbuf_nlat : (s.withTxbuf b).nlat = s.nlat := rfl
@[simp] theorem State.withTxbuf_exp : (s.withTxbuf b).exp = s.exp := rfl
@[simp] theorem State.withTxbuf_pcnt : (s.withTxbuf b).pcnt = s.pcnt := rfl
@[simp] theorem State.withTxbuf_rxLevel : rxLevel (s.withTxbuf b) = rxLevel s := rfl
@[simp] theorem State.withTxbuf_fetchResponse : fetchResponse (s.withTxbuf b) = fetchResponse s := rfl

end

theorem Alike.refl (s : State) : Alike s s := .running s s.txbuf rfl

theorem AlikeOutcome.next_left {s : State} {o : Host.Outcome State Fault Refusal} (h : AlikeOutcome (.next s) o) :
    ∃ t, o = .next t ∧ Alike s t := by
  cases h with
  | next h => exact ⟨_, rfl, h⟩

/-! #### The simulation and the outside -/

/-- Alike states are the same to the outside. -/
theorem Alike.sameToTheOutside {s t : State} (h : Alike s t) : SameToTheOutside s t := by
  cases h <;>
    exact ⟨⟨rfl, rfl, rfl, rfl, rfl, rfl, rfl⟩, rfl, rfl, rfl, rfl, rfl, rfl, rfl, rfl, ⟨rfl, rfl⟩, ⟨rfl, rfl⟩⟩

/-- Outside the hidden registers nothing is left to differ but PH. -/
theorem SameToTheOutside.eq_withHidden {s t : State} (h : SameToTheOutside s t) (hp : t.ph = s.ph) :
    t = s.withHidden t := by
  obtain ⟨⟨hcmd, hnid, hnpos, hdur, htmo, hids, hposs⟩, hbusy, hdone, herr, hesub, hrkind, hvbat, hrcnt, hrpos,
    ⟨hrxq, htxlog⟩, ⟨hsched, hdraws⟩⟩ := h
  simp only [State.withHidden, ← hp, ← hcmd, ← hnid, ← hnpos, ← hdur, ← htmo, ← hids, ← hposs, ← hbusy, ← hdone,
    ← herr, ← hesub, ← hrkind, ← hvbat, ← hrcnt, ← hrpos, ← hrxq, ← htxlog, ← hsched, ← hdraws]

/-- States in IDLE that are the same to the outside are alike. -/
theorem SameToTheOutside.alike_of_idle {s t : State} (h : SameToTheOutside s t) (hs : s.ph = .idle) (ht : t.ph = .idle) :
    Alike s t := by
  rw [h.eq_withHidden (ht.trans hs.symm)]
  exact .waiting s t hs

theorem Alike.ph {s t : State} (h : Alike s t) : t.ph = s.ph := by cases h <;> rfl

theorem Alike.busy {s t : State} (h : Alike s t) : t.busy = s.busy := h.sameToTheOutside.busy

theorem Alike.sched {s t : State} (h : Alike s t) : t.sched = s.sched := h.sameToTheOutside.inputs.sched

theorem Alike.draws {s t : State} (h : Alike s t) : t.draws = s.draws := h.sameToTheOutside.inputs.draws

theorem Alike.nid {s t : State} (h : Alike s t) : t.nid = s.nid := h.sameToTheOutside.operands.nid

theorem Alike.cmd {s t : State} (h : Alike s t) : t.cmd = s.cmd := h.sameToTheOutside.operands.cmd

/-- The command that START takes comes from the operand registers alone. -/
theorem Alike.fetchCommand {s t : State} (h : Alike s t) : fetchCommand t = fetchCommand s := by cases h <;> rfl

/-! #### Updates that keep states alike -/

theorem Alike.withSched {s t : State} (h : Alike s t) (ms : List Move) :
    Alike { s with sched := ms } { t with sched := ms } := by
  cases h with
  | waiting h hp => exact .waiting { s with sched := ms } h hp
  | running b hf => exact .running { s with sched := ms } b hf

theorem Alike.withDraws {s t : State} (h : Alike s t) (n : Nat) :
    Alike { s with draws := n } { t with draws := n } := by
  cases h with
  | waiting h hp => exact .waiting { s with draws := n } h hp
  | running b hf => exact .running { s with draws := n } b hf

theorem arrive_alike {s t : State} (h : Alike s t) (bytes : List Byte) : Alike (s.arrive bytes) (t.arrive bytes) := by
  cases h with
  | waiting h hp => exact .waiting (s.arrive bytes) h hp
  | running b hf => exact .running (s.arrive bytes) b hf

/-- Reset forgets every hidden register. -/
theorem Alike.resetBlock_eq {s t : State} (h : Alike s t) : t.resetBlock = s.resetBlock := by cases h <;> rfl

theorem writeRegister_ph (w : Write) (s : State) : (writeRegister w s).ph = s.ph := by cases w <;> rfl

theorem writeRegister_txFrame (w : Write) (s : State) : (writeRegister w s).txFrame = s.txFrame := by cases w <;> rfl

theorem writeRegister_withHidden (w : Write) (s h : State) :
    writeRegister w (s.withHidden h) = (writeRegister w s).withHidden h := by cases w <;> rfl

theorem writeRegister_withTxbuf (w : Write) (s : State) (b : Vector Byte 257) :
    writeRegister w (s.withTxbuf b) = (writeRegister w s).withTxbuf b := by cases w <;> rfl

theorem writeRegister_alike {s t : State} (h : Alike s t) (w : Write) :
    Alike (writeRegister w s) (writeRegister w t) := by
  cases h with
  | waiting h hp =>
    rw [writeRegister_withHidden]
    exact .waiting _ h ((writeRegister_ph w s).trans hp)
  | running b hf =>
    have hw : ((writeRegister w s).withTxbuf b).txFrame = (writeRegister w s).txFrame := by
      rw [← writeRegister_withTxbuf, writeRegister_txFrame, writeRegister_txFrame, hf]
    rw [writeRegister_withTxbuf]
    exact .running _ b hw

/-! #### START -/

/-- The frame that START loads does not depend on what TXBUF held before (rule R27). -/
theorem loadFrame_take_congr (f : List Byte) (a b : Vector Byte 257) {n : Nat} (hn : n ≤ f.length) :
    (loadFrame f a).toList.take n = (loadFrame f b).toList.take n := by
  apply List.ext_getElem
  · simp
  · intro i h₁ h₂
    have hi : i < f.length := by simp at h₁; omega
    simp [loadFrame_getElem, List.getD_eq_getElem?_getD, hi]

/-- START rewrites every hidden register that the command will read: after an accepted one the two differ behind the frame
alone, and one that raises leaves them no further apart. -/
theorem startWith_alike {s t : State} (h : Alike s t) (op n : Byte) (enc : Except Cause (List Byte × Nat)) :
    Alike (startWith op n enc s) (startWith op n enc t) := by
  rcases startWith_cases op n enc s with ⟨hb, e⟩ | ⟨hb, c, hc, e⟩ | ⟨hb, f, x, hf, e⟩
  · have et : startWith op n enc t = t := by simp [startWith, h.busy, hb]
    rwa [e, et]
  · rw [e, startWith_error op n (h.busy.trans hb) hc]
    cases h with
    | waiting h hp => exact .waiting (raise c (s.startClear op n)) (h.startClear op n) rfl
    | running b hf => exact .running (raise c (s.startClear op n)) b hf
  · rw [e, startWith_ok op n (h.busy.trans hb) hf]
    have hl : (BitVec.ofNat 9 f.length).toNat ≤ f.length := by simpa using Nat.mod_le _ _
    cases h with
    | waiting h hp =>
      exact .running ((s.startClear op n).accept f x) (loadFrame f h.txbuf) (loadFrame_take_congr f _ _ hl)
    | running b hf =>
      exact .running ((s.startClear op n).accept f x) (loadFrame f b) (loadFrame_take_congr f _ _ hl)

/-! #### Instructions -/

theorem execBatr_of_ne_check {s : State} (len : Byte) (mv : Half) (h : s.ph ≠ .check) : execBatr len mv s = .next s :=
  if_pos h

theorem execPosr_of_ne_check {s : State} (len c : Byte) (es : List PosEntry) (h : s.ph ≠ .check) :
    execPosr len c es s = .next s :=
  if_pos h

/-- In IDLE a BATR is not looked at; in CHECK it reads the echo, which is the same. -/
theorem execBatr_alike {s t : State} (h : Alike s t) (len : Byte) (mv : Half) :
    AlikeOutcome (execBatr len mv s) (execBatr len mv t) := by
  cases h with
  | waiting h hp =>
    have hc : s.ph ≠ .check := by simp [hp]
    rw [execBatr_of_ne_check len mv hc, execBatr_of_ne_check len mv (by simpa using hc)]
    exact .next (.waiting s h hp)
  | running b hf =>
    rw [execBatr, execBatr, State.withTxbuf_ph, State.withTxbuf_echo]
    split_ifs
    · exact .next (.running s b hf)
    · exact .next (.running (raise .badEcho s) b hf)
    · exact .next (.running (complete { s with vbat := mv, rkind := kindBattery }) b hf)

/-- In IDLE a POSR is not looked at; in CHECK it reads the echo and the count, which are the same. -/
theorem execPosr_alike {s t : State} (h : Alike s t) (len c : Byte) (es : List PosEntry) :
    AlikeOutcome (execPosr len c es s) (execPosr len c es t) := by
  cases h with
  | waiting h hp =>
    have hc : s.ph ≠ .check := by simp [hp]
    rw [execPosr_of_ne_check len c es hc, execPosr_of_ne_check len c es (by simpa using hc)]
    exact .next (.waiting s h hp)
  | running b hf =>
    rw [execPosr, execPosr, State.withTxbuf_ph, State.withTxbuf_echo, State.withTxbuf_nlat]
    split_ifs
    · exact .next (.running s b hf)
    · exact .next (.running (raise .badEcho s) b hf)
    · exact .fault _
    · exact .next (.running (complete { s with
        rpos := rposOf ((es.take s.nlat.toNat).map PosEntry.pos), rcnt := s.nlat, rkind := kindPositions }) b hf)

theorem exec_alike {s t : State} (h : Alike s t) (i : Instr) : AlikeOutcome (exec i s) (exec i t) := by
  cases i with
  | move ids ps d => exact .next (startWith_alike h _ _ _)
  | batq =>
    simp only [exec, execBatq, h.nid]
    exact .next (startWith_alike h _ _ _)
  | unload ids => exact .next (startWith_alike h _ _ _)
  | posq ids => exact .next (startWith_alike h _ _ _)
  | batr len mv => exact execBatr_alike h len mv
  | posr len c es => exact execPosr_alike h len c es

/-! #### The phases

A command in progress reads every hidden register, but of TXBUF the frame alone. -/

/-- An `RxRead` looks at RXQ alone and changes RXQ alone (rule R48). -/
theorem rxRead_of_rxq (n : Nat) (o : RxOutcome) (q : List Byte) :
    ∃ r q', ∀ s : State, s.rxq = q → rxRead n o s = (r, { s with rxq := q' }) := by
  cases o with
  | ok =>
    by_cases hn : n ≤ q.length
    · exact ⟨.ok (q.take n), q.drop n, fun s hs => by simp [rxRead, hs, hn]⟩
    · exact ⟨.short q, [], fun s hs => by simp [rxRead, hs, hn]⟩
  | short got =>
    exact ⟨.short (q.take (min got (n - 1))), q.drop (min got (n - 1)), fun s hs => by simp [rxRead, hs]⟩
  | fail lost => exact ⟨.fail, q.drop lost, fun s hs => by simp [rxRead, hs]⟩

section
variable {s : State} {b : Vector Byte 257} (hf : (s.withTxbuf b).txFrame = s.txFrame)
include hf

theorem engineFlush_alike (o : RxOutcome) : Alike (engineFlush o s) (engineFlush o (s.withTxbuf b)) := by
  obtain ⟨r, q, hr⟩ := rxRead_of_rxq (rxLevel s) o s.rxq
  simp only [engineFlush, State.withTxbuf_rxLevel, hr s rfl, hr (s.withTxbuf b) rfl]
  split
  · exact .running { s with ph := .send } b hf
  · cases r with
    | ok _ => exact .running { s with rxq := q, ph := .send } b hf
    | short _ => exact .running (raise .flushShort { s with rxq := q }) b hf
    | fail => exact .running (raise .flushFail { s with rxq := q }) b hf

/-- SEND is the one phase that reads TXBUF, and it reads the frame (rule R93). -/
theorem engineSend_alike (o : TxOutcome) : Alike (engineSend o s) (engineSend o (s.withTxbuf b)) := by
  simp only [engineSend, hf]
  cases o with
  | ok =>
    simp only [txWrite, State.withTxbuf_echo]
    split
    · exact .running { s with txlog := s.txlog ++ s.txFrame, ph := .poll } b hf
    · exact .running (complete { s with txlog := s.txlog ++ s.txFrame }) b hf
  | fail k => exact .running (raise .writeFail { s with txlog := s.txlog ++ s.txFrame.take k }) b hf

theorem enginePoll_alike : Alike (enginePoll s) (enginePoll (s.withTxbuf b)) := by
  rw [enginePoll, enginePoll, State.withTxbuf_rxLevel, State.withTxbuf_exp, State.withTxbuf_pcnt, State.withTxbuf_tmo]
  split_ifs
  · exact .running { s with ph := .read } b hf
  · exact .running (raise .pollExpired s) b hf
  · exact .running { s with pcnt := s.pcnt + 1 } b hf

theorem engineRead_alike (o : RxOutcome) : Alike (engineRead o s) (engineRead o (s.withTxbuf b)) := by
  obtain ⟨r, q, hr⟩ := rxRead_of_rxq s.exp.toNat o s.rxq
  simp only [engineRead, State.withTxbuf_exp, hr s rfl, hr (s.withTxbuf b) rfl]
  cases r with
  | ok bytes => exact .running { s with rxq := q, rxbuf := bytes, ph := .check } b hf
  | short _ => exact .running (raise .shortRead { s with rxq := q }) b hf
  | fail => exact .running (raise .readFail { s with rxq := q }) b hf

theorem engineCheck_alike : AlikeOutcome (engineCheck s) (engineCheck (s.withTxbuf b)) := by
  simp only [engineCheck, State.withTxbuf_fetchResponse]
  rcases fetchResponse s with e | ⟨i, _⟩
  · cases e with
    | badSync => exact .next (.running (raise .badSync s) b hf)
    | badEcho => exact .next (.running (raise .badEcho s) b hf)
    | noResponse => exact .next (.running (complete s) b hf)
    | truncated => exact .fault _
    | badOpcode => exact .fault _
    | badLength => exact .fault _
    | countRange => exact .fault _
  · exact exec_alike (.running s b hf) i

end

theorem engineStep_alike {s t : State} (h : Alike s t) (d : Draw) : AlikeOutcome (engineStep d s) (engineStep d t) := by
  cases h with
  | waiting h hp =>
    simp only [engineStep, State.withHidden_ph, hp]
    exact .next (.waiting s h hp)
  | running b hf =>
    cases hp : s.ph <;> simp only [engineStep, State.withTxbuf_ph, hp]
    case idle => exact .next (.running s b hf)
    case flush => exact .next (engineFlush_alike hf d.rx)
    case send => exact .next (engineSend_alike hf d.tx)
    case poll => exact .next (enginePoll_alike hf)
    case read => exact .next (engineRead_alike hf d.rx)
    case check => exact engineCheck_alike hf

/-! #### Moves, steps and runs -/

theorem hostStart_alike {s t : State} (h : Alike s t) : AlikeOutcome (hostStart s) (hostStart t) := by
  cases hi : fetchCommand s with
  | some i =>
    rw [hostStart_some hi, hostStart_some (h.fetchCommand.trans hi)]
    exact exec_alike h i
  | none =>
    rw [hostStart_none hi, hostStart_none (h.fetchCommand.trans hi), startBadOpcode, startBadOpcode, h.cmd, h.nid]
    exact .next (startWith_alike h _ _ _)

theorem hostWrite_alike {s t : State} (h : Alike s t) (w : Write) : AlikeOutcome (hostWrite w s) (hostWrite w t) := by
  cases hb : s.busy with
  | true =>
    rw [hostWrite_busy w hb, hostWrite_busy w (h.busy.trans hb)]
    exact .next h
  | false =>
    have ht := h.busy.trans hb
    by_cases hw : ∃ c, w = .ctrl c
    · obtain ⟨c, rfl⟩ := hw
      cases c with
      | true =>
        rw [hostWrite_start hb, hostWrite_start ht]
        exact hostStart_alike h
      | false =>
        rw [hostWrite_zero, hostWrite_zero]
        exact .next h
    · have hw' : ∀ c, w ≠ .ctrl c := fun c hc => hw ⟨c, hc⟩
      rw [hostWrite_register hb hw', hostWrite_register ht hw']
      exact .next (writeRegister_alike h w)

theorem moveStep_alike {s t : State} (h : Alike s t) (m : Move) : AlikeOutcome (moveStep m s) (moveStep m t) := by
  cases m with
  | write w => exact hostWrite_alike h w
  | read _ => exact .next h
  | arrive bytes => exact .next (arrive_alike h bytes)
  | engine d => exact engineStep_alike h d
  | reset =>
    simp only [moveStep, h.resetBlock_eq]
    exact .next (.refl _)

theorem engineAlone_alike {s t : State} (h : Alike s t) : AlikeOutcome (engineAlone s) (engineAlone t) := by
  by_cases hp : s.ph = .idle
  · rw [engineAlone, if_pos hp, engineAlone, if_pos (h.ph.trans hp)]
    exact .next h
  · rw [engineAlone_running hp, engineAlone_running (h.ph ▸ hp), h.draws]
    exact engineStep_alike (h.withDraws _) _

theorem step_alike {s t : State} (h : Alike s t) : AlikeOutcome (step s) (step t) := by
  cases hs : s.sched with
  | nil =>
    rw [step_nil hs, step_nil (h.sched.trans hs)]
    exact engineAlone_alike h
  | cons m ms =>
    rw [step_cons hs, step_cons (h.sched.trans hs)]
    exact moveStep_alike (h.withSched ms) m

theorem run_alike (k : Nat) {s t : State} (h : Alike s t) :
    AlikeOutcome (Host.Core.run Sys2Proof.core k s) (Host.Core.run Sys2Proof.core k t) := by
  induction k generalizing s t with
  | zero => exact .next h
  | succ k ih =>
    have hs : AlikeOutcome (Sys2Proof.core.step s) (Sys2Proof.core.step t) := step_alike h
    simp only [Host.Core.run]
    generalize Sys2Proof.core.step s = o₁, Sys2Proof.core.step t = o₂ at hs ⊢
    cases hs with
    | next h' => exact ih h'
    | fault r => exact .fault r
    | refused r => exact .refused r

/-- Settles O43, by a simulation: hidden leftovers differ only while the block waits, START rewrites all that a command reads,
and reset all that is left. -/
theorem hiddenLeftoversAreNeverObservable : Obligations.HiddenLeftoversAreNeverObservable := by
  intro k s₁ s₂ t₁ h₁ h₂ hout hrun
  have h := run_alike k (hout.alike_of_idle h₁ h₂)
  rw [hrun] at h
  obtain ⟨t₂, hrun₂, h⟩ := h.next_left
  exact ⟨t₂, hrun₂, h.sameToTheOutside⟩

end Sys2Proof.Machine

/-! ### What every step keeps (family 10_state) -/

namespace Sys2Proof.Machine

/-! #### Operand registers

A host write stores into an operand register; every other field is a frame, which one equation says for all writes. -/

/-- The state with the operand registers of `o`. -/
def State.withOperands (s o : State) : State :=
  { s with cmd := o.cmd, nid := o.nid, npos := o.npos, dur := o.dur, tmo := o.tmo, ids := o.ids, poss := o.poss }

/-- A write changes operand registers and nothing else (rules R11 to R18, R34). -/
theorem writeRegister_eq_withOperands (w : Write) (s : State) :
    writeRegister w s = s.withOperands (writeRegister w s) := by cases w <;> rfl

/-! #### The invariant under the updates of a step -/

theorem reset_inv : Inv State.reset := by
  constructor <;> simp [State.reset, legalErr]

/-- Reset as an event is the reset state with the bytes of RXQ and the inputs still to come (rule R131). -/
theorem resetBlock_inv (s : State) : Inv s.resetBlock :=
  (reset_inv.arrive s.rxq).inputs s.sched s.draws

/-- While no command is in progress the operand registers do not enter the invariant. -/
theorem Inv.withOperands {s : State} (h : Inv s) (hb : s.busy = false) (o : State) : Inv (s.withOperands o) :=
  { h with pcnt_bound := fun hc : s.busy = true => by simp [hb] at hc }

theorem writeRegister_inv {s : State} (h : Inv s) (hb : s.busy = false) (w : Write) : Inv (writeRegister w s) := by
  rw [writeRegister_eq_withOperands]
  exact h.withOperands hb _

/-- A command in progress may go to a phase whose entry conditions hold, with other bytes in the streams and in RXBUF and
another count of polls: what START latched is what the invariant ties them to. -/
theorem Inv.running {s : State} (h : Inv s) (hs : s.ph ≠ .idle) {p : Phase} {c : Word} {b q l : List Byte}
    (hidle : p ≠ .idle) (hquery : p ≠ .send → isQuery s.echo = true) (hstart : p = .flush ∨ p = .send → c = 0)
    (hbound : c.toNat ≤ s.tmo.toNat) (hmax : b.length ≤ 761) (hread : p = .read → s.exp.toNat ≤ q.length)
    (hcheck : p = .check → b.length = s.exp.toNat) :
    Inv { s with ph := p, pcnt := c, rxbuf := b, rxq := q, txlog := l } :=
  { h with
    idle_iff := by simp [hidle, h.busy_of hs]
    rxbuf_max := hmax
    query_phase := fun hp => hquery (by rintro rfl; simp at hp)
    pcnt_start := hstart
    pcnt_bound := fun _ => hbound
    read_level := hread
    check_length := hcheck }

/-- A command in progress ends well with any result that keeps the tags of rules R22 to R25: no error stands while it is in
progress. -/
theorem Inv.complete_result {s : State} (h : Inv s) (hb : s.busy = true) {k : BitVec 2} {mv : Half} {n : Byte}
    {ps : Vector Half 256} {l : List Byte} (hk : k ≠ 3) (hmv : k ≠ 1 → mv = 0) (hn : k ≠ 2 → n = 0)
    (hps : ∀ (i : Nat) (hi : i < 256), n.toNat ≤ i → ps[i] = 0) :
    Inv (complete { s with rkind := k, vbat := mv, rcnt := n, rpos := ps, txlog := l }) := by
  obtain ⟨herr, -⟩ := h.no_result hb
  constructor
  case err_legal => exact h.err_legal
  case rkind_legal => exact hk
  case vbat_tag => exact hmv
  case rcnt_tag => exact hn
  case rpos_tail => exact hps
  case rxbuf_max => exact h.rxbuf_max
  all_goals simp [herr]

/-! #### Instructions -/

/-- A command that its encoder rule accepts has a legal count (rule R70), which its count byte can hold. -/
theorem count_le_countLimit {i : Instr} (hkey : i.key = .command) (hwf : i.wf = true) :
    i.count ≤ countLimit i.opcode ∧ i.count ≤ 252 := by
  cases i with
  | move ids ps d =>
    simp only [Instr.wf, Config.moveMax, Bool.and_eq_true, decide_eq_true_eq] at hwf
    exact ⟨hwf.2, by simp only [Instr.count]; omega⟩
  | batq => decide
  | unload ids => simpa [Instr.count, Instr.opcode, countLimit, Instr.wf] using hwf
  | posq ids => simpa [Instr.count, Instr.opcode, countLimit, Instr.wf] using hwf
  | batr _ _ => cases hkey
  | posr _ _ _ => cases hkey

/-- The whole length of a command's frame (rules R63 to R66). -/
theorem encode_length_eq_frameLength {i : Instr} (hkey : i.key = .command) (hwf : i.wf = true) :
    (encode i).length = frameLength i.opcode i.count := by
  cases i with
  | move ids ps d =>
    simp only [Instr.wf, Bool.and_eq_true, beq_iff_eq] at hwf
    simp [Instr.payload, frameLength, Instr.opcode, Instr.count, ← hwf.1]
    omega
  | batq => rfl
  | unload ids => simp [Instr.payload, frameLength, Instr.opcode, Instr.count]; omega
  | posq ids => simp [Instr.payload, frameLength, Instr.opcode, Instr.count]; omega
  | batr _ _ => cases hkey
  | posr _ _ _ => cases hkey

/-- The length byte of a command's frame is the frame's length less 2 (rules R60, R63 to R66). -/
theorem lengthByte_eq_frameLength {i : Instr} (hkey : i.key = .command) :
    i.lengthByte = BitVec.ofNat 8 (frameLength i.opcode i.count - 2) := by
  cases i with
  | move _ _ _ => rfl
  | batq => rfl
  | unload _ => rfl
  | posq _ => rfl
  | batr _ _ => cases hkey
  | posr _ _ _ => cases hkey

theorem command_opcode {i : Instr} (hkey : i.key = .command) :
    i.opcode = 0x03 ∨ i.opcode = 0x0F ∨ i.opcode = 0x14 ∨ i.opcode = 0x15 := by
  cases i with
  | move _ _ _ => exact .inl rfl
  | batq => exact .inr (.inl rfl)
  | unload _ => exact .inr (.inr (.inl rfl))
  | posq _ => exact .inr (.inr (.inr rfl))
  | batr _ _ => cases hkey
  | posr _ _ _ => cases hkey

/-- No legal frame is longer than TXBUF and no expected length wider than EXP (rules R5, R27, R29). -/
theorem frameLength_le {op : Byte} {n : Nat} (h : n ≤ countLimit op) (hn : n ≤ 252) :
    frameLength op n ≤ 257 ∧ expectedLength op n < 1024 := by
  unfold frameLength expectedLength
  unfold countLimit at h
  split_ifs at h ⊢ <;> omega

/-- An accepted command starts with the latches that the invariant ties to its opcode and count. -/
theorem accept_command_inv {i : Instr} (s : State) (hkey : i.key = .command) (hwf : i.wf = true) :
    Inv ((s.startClear i.opcode (toByte i.count)).accept (encode i) (expectedLength i.opcode i.count)) := by
  obtain ⟨hc, hc252⟩ := count_le_countLimit hkey hwf
  obtain ⟨hf257, he1024⟩ := frameLength_le hc hc252
  have hlen := encode_length_eq_frameLength hkey hwf
  have hn : (toByte i.count).toNat = i.count := toByte_toNat_of_lt (by omega)
  refine accept_inv (command_opcode hkey) (hn.symm ▸ hc) (by rw [hn]) he1024 (by rw [hn, hlen]) (hlen ▸ hf257) ?_
  rw [hlen, ← lengthByte_eq_frameLength hkey]
  rfl

/-- BATQ ignores its count: NLAT may be anything (rules R82, R91). -/
theorem accept_batq_inv (n : Byte) (s : State) :
    Inv ((s.startClear opBattery n).accept (encode .batq) Config.batRlen) :=
  accept_inv (.inr (.inl rfl)) (Nat.le_of_lt_succ n.isLt) rfl (by decide) rfl (by decide) rfl

theorem exec_inv {i : Instr} {s t : State} (h : Inv s) (ht : exec i s = .next t) : Inv t := by
  cases i with
  | move ids ps d =>
    cases ht
    refine startWith_inv h fun f e hok => ?_
    obtain ⟨hl, hn, rfl, rfl⟩ := encodeMove_ok_inv hok
    exact accept_command_inv (i := .move ids ps d) s rfl (by simp [Instr.wf, ← hl, hn])
  | batq =>
    cases ht
    refine startWith_inv h fun f e hok => ?_
    cases hok
    exact accept_batq_inv s.nid s
  | unload ids =>
    cases ht
    refine startWith_inv h fun f e hok => ?_
    obtain ⟨hn, rfl, rfl⟩ := encodeUnload_ok_inv hok
    exact accept_command_inv (i := .unload ids) s rfl (by simpa [Instr.wf] using hn)
  | posq ids =>
    cases ht
    refine startWith_inv h fun f e hok => ?_
    obtain ⟨hn, rfl, rfl⟩ := encodePosq_ok_inv hok
    exact accept_command_inv (i := .posq ids) s rfl (by simpa [Instr.wf] using hn)
  | batr len mv =>
    change execBatr len mv s = .next t at ht
    rcases execBatr_cases len mv s with ⟨-, e⟩ | ⟨-, -, e⟩ | ⟨hp, -, e⟩ <;> rw [e] at ht <;> cases ht
    · exact h
    · exact raise_inv h.rxbuf_max
    · have hb := h.busy_of (by simp [hp])
      obtain ⟨-, -, -, -, hr, hrpos⟩ := h.no_result hb
      exact h.complete_result hb (by decide) (absurd rfl) (fun _ => hr) (fun j hj _ => hrpos j hj)
  | posr len c es =>
    change execPosr len c es s = .next t at ht
    rcases execPosr_cases len c es s with ⟨-, e⟩ | ⟨-, -, e⟩ | ⟨-, -, -, e⟩ | ⟨hp, -, -, e⟩ <;> rw [e] at ht <;> cases ht
    · exact h
    · exact raise_inv h.rxbuf_max
    · have hb := h.busy_of (by simp [hp])
      obtain ⟨-, -, -, hv, -⟩ := h.no_result hb
      refine h.complete_result hb (by decide) (fun _ => hv) (absurd rfl) fun j hj hle => ?_
      rw [rposOf_getElem, List.getD_eq_default _ _ (by simp; omega)]

/-! #### The phases -/

/-- A command that has no result to give ends well. -/
theorem Inv.complete {s : State} (h : Inv s) (hb : s.busy = true) (l : List Byte) :
    Inv (complete { s with txlog := l }) :=
  h.complete_result hb h.rkind_legal h.vbat_tag h.rcnt_tag h.rpos_tail

section
variable {s : State} (h : Inv s)
include h

theorem engineFlush_inv (o : RxOutcome) (hp : s.ph = .flush) : Inv (engineFlush o s) := by
  have hrun : s.ph ≠ .idle := by simp [hp]
  have hpcnt := h.pcnt_bound (h.busy_of hrun)
  have hstart := h.pcnt_start (.inl hp)
  rcases engineFlush_cases o s with ⟨-, e⟩ | ⟨-, e⟩ | ⟨k, e⟩ | ⟨k, e⟩ <;> rw [e]
  · exact h.running hrun (by simp) (by simp) (fun _ => hstart) hpcnt h.rxbuf_max (by simp) (by simp)
  · exact h.running hrun (by simp) (by simp) (fun _ => hstart) hpcnt h.rxbuf_max (by simp) (by simp)
  · exact raise_inv h.rxbuf_max
  · exact raise_inv h.rxbuf_max

theorem engineSend_inv (o : TxOutcome) (hp : s.ph = .send) : Inv (engineSend o s) := by
  have hrun : s.ph ≠ .idle := by simp [hp]
  have hb := h.busy_of hrun
  rcases engineSend_cases o s with ⟨hq, e⟩ | ⟨-, e⟩ | ⟨k, e⟩ <;> rw [e]
  · exact h.running hrun (by simp) (fun _ => hq) (by simp) (h.pcnt_bound hb) h.rxbuf_max (by simp) (by simp)
  · exact h.complete hb _
  · exact raise_inv h.rxbuf_max

/-- One more poll keeps PCNT within TMO: it was below it. -/
theorem enginePoll_inv (hp : s.ph = .poll) : Inv (enginePoll s) := by
  have hrun : s.ph ≠ .idle := by simp [hp]
  have hpcnt := h.pcnt_bound (h.busy_of hrun)
  have hq := h.query_phase (.inr (.inl hp))
  rcases enginePoll_cases s with ⟨hl, e⟩ | ⟨-, -, e⟩ | ⟨-, hne, e⟩ <;> rw [e]
  · exact h.running hrun (by simp) (fun _ => hq) (by simp) hpcnt h.rxbuf_max (fun _ => hl.ge) (by simp)
  · exact raise_inv h.rxbuf_max
  · have hbound : (s.pcnt + 1).toNat ≤ s.tmo.toNat := by bv_omega
    exact h.running hrun hrun (fun _ => hq) (by simp [hp]) hbound h.rxbuf_max (by simp [hp]) (by simp [hp])

theorem engineRead_inv (o : RxOutcome) (hp : s.ph = .read) : Inv (engineRead o s) := by
  have hrun : s.ph ≠ .idle := by simp [hp]
  have hb := h.busy_of hrun
  have hq := h.query_phase (.inr (.inr (.inl hp)))
  obtain ⟨hlo, hhi⟩ := exp_bounds h hq hb
  rcases engineRead_cases o s (by omega) with ⟨hl, e⟩ | ⟨k, e⟩ | ⟨k, e⟩ <;> rw [e]
  · have hlen : (s.rxq.take s.exp.toNat).length = s.exp.toNat := List.length_take_of_le hl
    exact h.running hrun (by simp) (fun _ => hq) (by simp) (h.pcnt_bound hb) (hlen.trans_le hhi) (by simp) (fun _ => hlen)
  · exact raise_inv h.rxbuf_max
  · exact raise_inv h.rxbuf_max

theorem engineCheck_inv {t : State} (hp : s.ph = .check) (ht : engineCheck s = .next t) : Inv t := by
  unfold engineCheck at ht
  split at ht
  case h_1 => exact exec_inv h ht
  case h_2 => cases ht; exact raise_inv h.rxbuf_max
  case h_3 => cases ht; exact raise_inv h.rxbuf_max
  case h_4 => cases ht; exact h.complete (h.busy_of (by simp [hp])) _
  all_goals cases ht

theorem engineStep_inv {d : Draw} {t : State} (ht : engineStep d s = .next t) : Inv t := by
  cases hp : s.ph <;> simp only [engineStep, hp] at ht
  case idle => cases ht; exact h
  case flush => cases ht; exact engineFlush_inv h d.rx hp
  case send => cases ht; exact engineSend_inv h d.tx hp
  case poll => cases ht; exact enginePoll_inv h hp
  case read => cases ht; exact engineRead_inv h d.rx hp
  case check => exact engineCheck_inv h hp ht

/-! #### Moves and steps -/

theorem startBadOpcode_inv : Inv (startBadOpcode s) :=
  startWith_inv h fun _ _ hok => by cases hok

theorem hostStart_inv {t : State} (ht : hostStart s = .next t) : Inv t := by
  cases hi : fetchCommand s with
  | some i => exact exec_inv h (hostStart_some hi ▸ ht)
  | none =>
    rw [hostStart_none hi] at ht
    cases ht
    exact startBadOpcode_inv h

theorem hostWrite_inv {w : Write} {t : State} (ht : hostWrite w s = .next t) : Inv t := by
  cases hb : s.busy with
  | true =>
    rw [hostWrite_busy w hb] at ht
    cases ht
    exact h
  | false =>
    by_cases hw : ∃ b, w = .ctrl b
    · obtain ⟨b, rfl⟩ := hw
      cases b with
      | true => exact hostStart_inv h (hostWrite_start hb ▸ ht)
      | false =>
        rw [hostWrite_zero] at ht
        cases ht
        exact h
    · rw [hostWrite_register hb fun b hc => hw ⟨b, hc⟩] at ht
      cases ht
      exact writeRegister_inv h hb w

theorem moveStep_inv {m : Move} {t : State} (ht : moveStep m s = .next t) : Inv t := by
  cases m with
  | write w => exact hostWrite_inv h ht
  | read _ => cases ht; exact h
  | arrive b => cases ht; exact h.arrive b
  | engine d => exact engineStep_inv h ht
  | reset => cases ht; exact resetBlock_inv s

theorem engineAlone_inv {t : State} (ht : engineAlone s = .next t) : Inv t := by
  by_cases hp : s.ph = .idle
  · rw [engineAlone, if_pos hp] at ht
    cases ht
    exact h
  · rw [engineAlone_running hp] at ht
    exact engineStep_inv (h.inputs s.sched (s.draws + 1)) ht

end

/-- Settles O36, by the invariant of each move of each agent. -/
theorem stepKeepsTheInvariant : Obligations.StepKeepsTheInvariant := by
  intro s t h ht
  cases hs : s.sched with
  | nil => exact engineAlone_inv h (step_nil hs ▸ ht)
  | cons m ms =>
    rw [step_cons hs] at ht
    exact moveStep_inv (h.inputs ms s.draws) ht

/-- Settles O35. -/
theorem invariantHoldsAtReset : Obligations.InvariantHoldsAtReset := reset_inv

end Sys2Proof.Machine

/-! ### The host's registers (family 10_state) -/

namespace Sys2Proof.Machine

/-! #### Reset and moves -/

/-- Settles O1, field by field. -/
theorem resetLeavesTheStatedValues : Obligations.ResetLeavesTheStatedValues := by
  refine ⟨⟨rfl, rfl, rfl, rfl, rfl, rfl⟩, fun i hi => ?_, ⟨rfl, rfl, rfl, rfl, rfl, rfl, rfl, rfl⟩,
    ⟨rfl, rfl, rfl, rfl, rfl, rfl, rfl⟩⟩
  exact ⟨Vector.getElem_replicate hi, Vector.getElem_replicate hi, Vector.getElem_replicate hi⟩

/-- Settles O48, by the step's equation for a scheduled move. -/
theorem arrivalAppendsAtTheTail : Obligations.ArrivalAppendsAtTheTail :=
  fun _ _ _ h => step_cons h

theorem sameOperands_inputs (s : State) (ms : List Move) (n : Nat) :
    SameOperands s { s with sched := ms, draws := n } :=
  ⟨rfl, rfl, rfl, rfl, rfl, rfl, rfl⟩

/-- A move that is no host write and no reset leaves the operand registers (rule R34). -/
theorem moveStep_operands {m : Move} {s t : State} (hw : ∀ w, m ≠ .write w) (hr : m ≠ .reset)
    (h : moveStep m s = .next t) : SameOperands s t := by
  cases m with
  | write w => exact absurd rfl (hw w)
  | read _ => cases h; exact .refl s
  | arrive _ => cases h; exact ⟨rfl, rfl, rfl, rfl, rfl, rfl, rfl⟩
  | engine d => exact (engineStep_frame h).1
  | reset => exact absurd rfl hr

theorem engineAlone_operands {s t : State} (h : engineAlone s = .next t) : SameOperands s t := by
  by_cases hp : s.ph = .idle
  · rw [engineAlone, if_pos hp] at h
    cases h
    exact .refl s
  · rw [engineAlone_running hp] at h
    exact (sameOperands_inputs s _ _).trans (engineStep_frame h).1

/-- Settles O7, by the frame of the engine's steps. -/
theorem engineNeverWritesOperands : Obligations.EngineNeverWritesOperands := by
  intro s t hw hr h
  cases hs : s.sched with
  | nil => exact engineAlone_operands (step_nil hs ▸ h)
  | cons m ms =>
    rw [step_cons hs] at h
    have hmw : ∀ w, m ≠ .write w := fun w hm => hw w ms (hm ▸ hs)
    have hmr : m ≠ .reset := fun hm => hr ms (hm ▸ hs)
    exact (sameOperands_inputs s _ _).trans (moveStep_operands hmw hmr h)

/-! #### Writes -/

/-- A step that takes a host write of an operand register while BUSY = 0 is that write. -/
theorem step_write {s : State} {w : Write} {ms : List Move} (h : s.sched = .write w :: ms) (hb : s.busy = false)
    (hw : ∀ b, w ≠ .ctrl b) : step s = .next (writeRegister w { s with sched := ms }) :=
  (step_cons h).trans (hostWrite_register hb hw)

theorem mask16_toNat (v : Nat) : (mask16 v).toNat = v % 65536 := BitVec.toNat_ofNat v 16

/-- Settles O3, by the rule for a step that takes a write and that for an array with one entry set. -/
theorem hostWriteStoresAndMasks : Obligations.HostWriteStoresAndMasks := by
  intro s ms hb
  refine ⟨fun v h => ?_, fun i v h => ?_, fun i v h => ?_, fun v h => ?_, fun v h => ?_, fun v h => ?_, fun v h => ?_⟩
  · exact ⟨_, step_write h hb (by simp), mask16_toNat v, rfl⟩
  · refine ⟨_, step_write h hb (by simp), fun k hk => ?_, rfl⟩
    simp only [writeRegister, Vector.getElem_setIfInBounds, eq_comm (a := i.toNat)]
    split
    · exact mask16_toNat v
    · rfl
  · refine ⟨_, step_write h hb (by simp), fun k hk => ?_, rfl⟩
    simp only [writeRegister, Vector.getElem_setIfInBounds, eq_comm (a := i.toNat)]
  · exact step_write h hb (by simp)
  · exact step_write h hb (by simp)
  · exact step_write h hb (by simp)
  · exact step_write h hb (by simp)

/-- A START of any command while BUSY = 1 has no effect (rules R18, R91). -/
theorem exec_command_busy {i : Instr} {s : State} (hkey : i.key = .command) (hb : s.busy = true) :
    exec i s = .next s := by
  have hstart (op n enc) : startWith op n enc s = s := by simp [startWith, hb]
  cases i with
  | move _ _ _ => exact congrArg _ (hstart _ _ _)
  | batq => exact congrArg _ (hstart _ _ _)
  | unload _ => exact congrArg _ (hstart _ _ _)
  | posq _ => exact congrArg _ (hstart _ _ _)
  | batr _ _ => cases hkey
  | posr _ _ _ => cases hkey

/-- A write to a read-only register has no effect, whether BUSY or not (rule R34). -/
theorem hostWrite_readOnly (r : ReadOnly) (s : State) : hostWrite (.readOnly r) s = .next s := by
  cases hb : s.busy with
  | true => exact hostWrite_busy _ hb
  | false => exact hostWrite_register hb (by simp)

/-- Settles O5, one clause by the rule of each access. -/
theorem hostAccessWithoutEffect : Obligations.HostAccessWithoutEffect := by
  intro s ms
  refine ⟨fun no h => step_cons h, fun w h hb => ?_, fun h => ?_, fun r h => ?_, rfl, fun hb i hkey => ?_⟩
  · exact (step_cons h).trans (hostWrite_busy w hb)
  · exact (step_cons h).trans (hostWrite_zero _)
  · exact (step_cons h).trans (hostWrite_readOnly r _)
  · exact exec_command_busy hkey hb

/-! #### Reads by number (rule R10) -/

/-- Settles O6: two bits, joined. -/
theorem statusReadsBusyAndDone : Obligations.StatusReadsBusyAndDone := by
  intro s
  simp only [hostRead, State.status]
  cases s.busy <;> cases s.done <;> rfl

/-- The host reads a register narrower than the bus with its own value. -/
theorem map_toNat_setWidth {w : Nat} (x : BitVec w) (h : w ≤ 32) :
    (some (x.setWidth 32)).map BitVec.toNat = some x.toNat :=
  congrArg some (BitVec.toNat_setWidth_of_le h)

theorem getD_toList_eq_getElem {α : Type} (v : Vector α 256) (d : α) {i : Nat} (h : i < 256) : v.toList.getD i d = v[i] := by
  simp [h]

/-- Settles O45, register by register of rule R10's table. -/
theorem hostReadsTheRegisterTable : Obligations.HostReadsTheRegisterTable := by
  intro s
  refine ⟨⟨?_, ?_, ?_, ?_, rfl⟩, ⟨?_, ?_⟩, ⟨?_, ?_, ?_⟩, fun i hi => ⟨?_, ?_, ?_⟩, fun no h => hostRead_none h⟩
  · exact map_toNat_setWidth s.cmd (by decide)
  · exact map_toNat_setWidth s.nid (by decide)
  · exact map_toNat_setWidth s.npos (by decide)
  · exact map_toNat_setWidth s.dur (by decide)
  · exact map_toNat_setWidth s.err (by decide)
  · exact map_toNat_setWidth s.esub (by decide)
  · exact map_toNat_setWidth s.rkind (by decide)
  · exact map_toNat_setWidth s.vbat (by decide)
  · exact map_toNat_setWidth s.rcnt (by decide)
  · rw [hostRead_ids hi, map_toNat_setWidth _ (by decide), getD_toList_eq_getElem _ _ hi]
  · rw [hostRead_poss hi, map_toNat_setWidth _ (by decide), getD_toList_eq_getElem _ _ hi]
  · rw [hostRead_rpos hi, map_toNat_setWidth _ (by decide), getD_toList_eq_getElem _ _ hi]

/-! #### Writes by number (rule R10) -/

section
variable {i : Nat} (v : Nat) (hi : i < 256)
include hi

theorem ofNumber_ids :
    Write.ofNumber (256 + i) v = if v < 2 ^ 8 then some (.id (BitVec.ofNat 8 i) (BitVec.ofNat 8 v)) else none := by
  rw [ofNumber_array v (by omega), if_neg (by omega), if_pos (by omega), Nat.add_sub_cancel_left]

theorem ofNumber_poss : Write.ofNumber (512 + i) v = some (.pos (BitVec.ofNat 8 i) v) := by
  rw [ofNumber_array v (by omega), if_neg (by omega), if_neg (by omega), if_pos (by omega), Nat.add_sub_cancel_left]

theorem ofNumber_rpos : Write.ofNumber (768 + i) v = some (.readOnly (.rpos (BitVec.ofNat 8 i))) := by
  rw [ofNumber_array v (by omega), if_neg (by omega), if_neg (by omega), if_neg (by omega), if_pos (by omega),
    Nat.add_sub_cancel_left]

end

theorem ofNumber_outside {no : Nat} (v : Nat) (h : 12 ≤ no ∧ no < 256 ∨ 1024 ≤ no) : Write.ofNumber no v = none := by
  rw [ofNumber_array v (by omega)]
  rcases h with ⟨-, h⟩ | h
  · exact if_pos h
  · rw [if_neg (by omega), if_neg (by omega), if_neg (by omega), if_neg (by omega)]

/-- A value of more than 8 bits cannot be presented to an 8-bit register (rules R12, R15). -/
theorem ofNumber_too_wide {no v : Nat} (h : no ≤ 2 ∨ 256 ≤ no ∧ no < 512) (hv : 256 ≤ v) :
    Write.ofNumber no v = none := by
  have hv8 : ¬ v < 2 ^ 8 := by omega
  rcases h with h | ⟨h, h'⟩
  · interval_cases no <;> exact if_neg hv8
  · rw [ofNumber_array v (by omega), if_neg (by omega), if_pos h', if_neg hv8]

/-- Settles O46, row by row of rule R10's table. -/
theorem registerNumbersSelectTheirWrites : Obligations.RegisterNumbersSelectTheirWrites := by
  exact ⟨fun v hv => ⟨if_pos hv, if_pos hv, if_pos hv, fun i hi => (ofNumber_ids v hi).trans (if_pos hv)⟩,
    fun v => ⟨rfl, fun i hi => ofNumber_poss v hi⟩,
    fun v hv => if_pos hv, ⟨rfl, rfl⟩, fun v => ⟨rfl, rfl, rfl, rfl, rfl, rfl, fun i hi => ofNumber_rpos v hi⟩,
    fun no v h => ofNumber_outside v h, fun no v h hv => ofNumber_too_wide h hv, fun v hv => if_neg (by omega),
    fun v hv => if_neg (by omega)⟩

/-! #### A written value reads back (rules R10, R34) -/

/-- The number of the register that a write stores into; a write to CTRL or to a read-only register stores nothing. -/
def Write.target : Write → Option Nat
  | .cmd _ => some 0
  | .nid _ => some 1
  | .npos _ => some 2
  | .dur _ => some 3
  | .tmo _ => some 4
  | .id i _ => some (256 + i.toNat)
  | .pos i _ => some (512 + i.toNat)
  | .ctrl _ => none
  | .readOnly _ => none

theorem Write.ne_ctrl_of_target {w : Write} {no : Nat} (h : w.target = some no) (b : Bool) : w ≠ .ctrl b := by
  rintro rfl
  cases h

/-- The writes of operand registers, each with the number and the value that stand for it (rules R10, R12, R15). -/
inductive OperandWrite : Nat → Nat → Write → Prop where
  | cmd {v : Nat} (hv : v < 256) : OperandWrite 0 v (.cmd (BitVec.ofNat 8 v))
  | nid {v : Nat} (hv : v < 256) : OperandWrite 1 v (.nid (BitVec.ofNat 8 v))
  | npos {v : Nat} (hv : v < 256) : OperandWrite 2 v (.npos (BitVec.ofNat 8 v))
  | dur (v : Nat) : OperandWrite 3 v (.dur v)
  | tmo (v : Nat) : OperandWrite 4 v (.tmo (BitVec.ofNat 32 v))
  | id {i v : Nat} (hi : i < 256) (hv : v < 256) :
      OperandWrite (256 + i) v (.id (BitVec.ofNat 8 i) (BitVec.ofNat 8 v))
  | pos {i : Nat} (v : Nat) (hi : i < 256) : OperandWrite (512 + i) v (.pos (BitVec.ofNat 8 i) v)

/-- Under the number of an operand register there is no other write. -/
theorem operandWrite_of_ofNumber {no v : Nat} {w : Write} (h : Write.ofNumber no v = some w)
    (hno : no ≤ 4 ∨ 256 ≤ no ∧ no < 768) : OperandWrite no v w := by
  rcases hno with hno | ⟨hlo, hhi⟩
  · interval_cases no
    · obtain ⟨hv, ⟨⟩⟩ := Option.ite_none_right_eq_some.mp h
      exact .cmd hv
    · obtain ⟨hv, ⟨⟩⟩ := Option.ite_none_right_eq_some.mp h
      exact .nid hv
    · obtain ⟨hv, ⟨⟩⟩ := Option.ite_none_right_eq_some.mp h
      exact .npos hv
    · cases h
      exact .dur v
    · obtain ⟨-, ⟨⟩⟩ := Option.ite_none_right_eq_some.mp h
      exact .tmo v
  · by_cases hid : no < 512
    · obtain ⟨i, rfl⟩ := Nat.exists_eq_add_of_le hlo
      have hi : i < 256 := by omega
      obtain ⟨hv, ⟨⟩⟩ := Option.ite_none_right_eq_some.mp (ofNumber_ids v hi ▸ h)
      exact .id hi hv
    · obtain ⟨i, rfl⟩ := Nat.exists_eq_add_of_le (not_lt.mp hid)
      have hi : i < 256 := by omega
      cases (ofNumber_poss v hi).symm.trans h
      exact .pos v hi

theorem OperandWrite.target {no v : Nat} {w : Write} (h : OperandWrite no v w) : w.target = some no := by
  cases h with
  | id hi _ => simp [Write.target, Nat.mod_eq_of_lt hi]
  | pos _ hi => simp [Write.target, Nat.mod_eq_of_lt hi]
  | _ => rfl

/-- A write leaves what the host reads under every number but its own (rule R10). -/
theorem hostRead_writeRegister_of_ne {w : Write} {no : Nat} (h : w.target ≠ some no) (s : State) :
    hostRead no (writeRegister w s) = hostRead no s := by
  rw [writeRegister_eq_withOperands]
  refine hostRead_congr no ?_ ?_ ?_ ?_ ?_ rfl rfl rfl rfl rfl rfl rfl rfl (fun hlo hhi => ?_) (fun hlo hhi => ?_)
  · rintro rfl
    cases w with
    | cmd v => exact absurd rfl h
    | _ => rfl
  · rintro rfl
    cases w with
    | nid v => exact absurd rfl h
    | _ => rfl
  · rintro rfl
    cases w with
    | npos v => exact absurd rfl h
    | _ => rfl
  · rintro rfl
    cases w with
    | dur v => exact absurd rfl h
    | _ => rfl
  · rintro rfl
    cases w with
    | tmo v => exact absurd rfl h
    | _ => rfl
  · cases w with
    | id i v =>
      have hne : no - 256 ≠ i.toNat := fun hi => h (congrArg some (by omega))
      exact (getD_set _ _ _ _ _).trans (if_neg fun hc => hne hc.1)
    | _ => rfl
  · cases w with
    | pos i v =>
      have hne : no - 512 ≠ i.toNat := fun hi => h (congrArg some (by omega))
      exact (getD_set _ _ _ _ _).trans (if_neg fun hc => hne hc.1)
    | _ => rfl

theorem mask16_setWidth (v : Nat) : (mask16 v).setWidth 32 = BitVec.ofNat 32 (v % 65536) := by
  apply BitVec.eq_of_toNat_eq
  rw [BitVec.toNat_setWidth_of_le (by decide), mask16_toNat, BitVec.toNat_ofNat]
  omega

/-- Under the number of an operand register the host reads the value that was written, masked where the register masks. -/
theorem hostRead_writeRegister {no v : Nat} {w : Write} (h : OperandWrite no v w) (s : State) :
    hostRead no (writeRegister w s) = some (BitVec.ofNat 32 (if no = 3 ∨ 512 ≤ no then v % 65536 else v)) := by
  have hbyte {b : Nat} (hb : b < 256) : (BitVec.ofNat 8 b).setWidth 32 = BitVec.ofNat 32 b :=
    BitVec.setWidth_ofNat_of_le_of_lt (by decide) hb
  have hindex {i : Nat} (hi : i < 256) : i = (BitVec.ofNat 8 i).toNat ∧ i < 256 := by simp [Nat.mod_eq_of_lt hi, hi]
  cases h with
  | cmd hv => exact congrArg some (hbyte hv)
  | nid hv => exact congrArg some (hbyte hv)
  | npos hv => exact congrArg some (hbyte hv)
  | dur v => exact congrArg some (mask16_setWidth v)
  | tmo _ => rfl
  | id hi hv => rw [if_neg (by omega), hostRead_ids hi, writeRegister, getD_set, if_pos (hindex hi), hbyte hv]
  | pos v hi => rw [if_pos (by omega), hostRead_poss hi, writeRegister, getD_set, if_pos (hindex hi), mask16_setWidth]

/-- Settles O4, by the two rules for a read after a write: under its own number and under any other. -/
theorem registerReadsBackWhatWasWritten : Obligations.RegisterReadsBackWhatWasWritten := by
  intro no v w s ms hnumber hb hs hno
  have hw := operandWrite_of_ofNumber hnumber hno
  refine ⟨_, step_write hs hb (Write.ne_ctrl_of_target hw.target), hostRead_writeRegister hw _, fun no' hne => ?_⟩
  have hne' : w.target ≠ some no' := fun h => hne (Option.some.inj (h.symm.trans hw.target))
  exact hostRead_writeRegister_of_ne hne' _

end Sys2Proof.Machine

/-! ### Whole exchanges and the two streams (family 20_memory) -/

namespace Sys2Proof.Machine

/-! #### CHECK of a good response, by frame index (rules R96 to R98) -/

/-- Bytes with the right sync and opcode begin with a frame header (rule R60). -/
theorem eq_header_append {r : List Byte} {op : Byte} (h0 : r[0]? = some 0x55) (h1 : r[1]? = some 0x55)
    (h3 : r[3]? = some op) : ∃ len payload, r = 0x55 :: 0x55 :: len :: op :: payload := by
  match r, h0, h1, h3 with
  | a :: b :: len :: c :: payload, h0, h1, h3 =>
    obtain rfl : a = 0x55 := Option.some.inj h0
    obtain rfl : b = 0x55 := Option.some.inj h1
    obtain rfl : c = op := Option.some.inj h3
    exact ⟨len, payload, rfl⟩

/-- The positions of `n` groups of a position response, by frame index (rule R98). -/
def responsePositions (r : List Byte) (n : Nat) : List Half :=
  (List.range n).map fun i => le16 (r.getD (6 + 3 * i) 0) (r.getD (7 + 3 * i) 0)

theorem responsePositions_getD {r : List Byte} {n : Nat} (i : Nat) :
    (responsePositions r n).getD i 0 = if i < n then le16 (r.getD (6 + 3 * i) 0) (r.getD (7 + 3 * i) 0) else 0 := by
  by_cases h : i < n <;> simp [responsePositions, h]

/-- The groups that follow a header and a count byte carry the positions that stand at the frame's indices. -/
theorem takeEntries_responsePositions {n : Nat} {len op c : Byte} {body rest : List Byte} {es : List PosEntry}
    (h : takeEntries n body = some (es, rest)) :
    es.map PosEntry.pos = responsePositions (0x55 :: 0x55 :: len :: op :: c :: body) n := by
  obtain ⟨hlen, -⟩ := takeEntries_some h
  apply List.ext_getElem?
  intro i
  by_cases hi : i < n
  · rw [takeEntries_pos h hi]
    simp [responsePositions, hi, show 6 + 3 * i = 3 * i + 1 + 5 by omega, show 7 + 3 * i = 3 * i + 2 + 5 by omega]
  · simp [responsePositions, hi, hlen]

theorem engineStep_check {s : State} (d : Draw) (hp : s.ph = .check) : engineStep d s = engineCheck s := by
  rw [engineStep, hp]

/-- CHECK runs the response that RXBUF decodes to (rule R96). -/
theorem engineCheck_of_fetchResponse {s : State} {i : Instr} {rest : List Byte} (h : fetchResponse s = .ok (i, rest)) :
    engineCheck s = exec i s := by
  rw [engineCheck, h]

section
variable {s : State} (hp : s.ph = .check) (h0 : s.rxbuf[0]? = some 0x55) (h1 : s.rxbuf[1]? = some 0x55)
  (h3 : s.rxbuf[3]? = some s.echo)
include hp h0 h1 h3

theorem engineCheck_battery (he : s.echo = opBattery) (hl : s.rxbuf.length = 6) :
    engineCheck s = .next (complete
      { s with vbat := le16 (s.rxbuf.getD 4 0) (s.rxbuf.getD 5 0), rkind := kindBattery }) := by
  obtain ⟨len, payload, hr⟩ := eq_header_append h0 h1 h3
  obtain ⟨lo, hi, rfl⟩ : ∃ lo hi, payload = [lo, hi] := List.length_eq_two.mp (by simpa [hr] using hl)
  have hexec : engineCheck s = execBatr len (le16 lo hi) s :=
    engineCheck_of_fetchResponse (fetchResponse_battery he hr)
  simp [hexec, execBatr, hp, he, hr]

theorem engineCheck_positions (he : s.echo = opPosition) (hl : s.rxbuf.length = 3 * s.nlat.toNat + 5) :
    engineCheck s = .next (complete
      { s with rpos := rposOf (responsePositions s.rxbuf s.nlat.toNat), rcnt := s.nlat, rkind := kindPositions }) := by
  obtain ⟨len, payload, hr⟩ := eq_header_append h0 h1 h3
  obtain ⟨c, body, rfl⟩ : ∃ c body, payload = c :: body := List.exists_cons_of_length_pos (by simp [hr] at hl; omega)
  obtain ⟨es, rest, hes⟩ := takeEntries_isSome (n := s.nlat.toNat) (f := body) (by simp [hr] at hl; omega)
  obtain ⟨hlen, -⟩ := takeEntries_some hes
  have hexec : engineCheck s = execPosr len c es s :=
    engineCheck_of_fetchResponse (fetchResponse_positions he hr hes)
  have hpos : responsePositions s.rxbuf s.nlat.toNat = es.map PosEntry.pos :=
    hr ▸ (takeEntries_responsePositions hes).symm
  simp [hexec, hpos, execPosr, hp, he, hlen, List.take_of_length_le]

end

/-! #### The phases over a transport that keeps its contract (rules R92 to R95) -/

section
variable {s : State}

theorem engineStep_flush_ok (hp : s.ph = .flush) :
    engineStep Draw.ok s = .next { s with rxq := [], ph := .send } := by
  cases hq : s.rxq with
  | nil => simp [engineStep, hp, engineFlush, rxLevel, hq]
  | cons b q => simp [engineStep, hp, engineFlush, rxLevel, hq, Draw.ok, rxRead]

theorem engineStep_send_ok (hp : s.ph = .send) (hq : isQuery s.echo = true) :
    engineStep Draw.ok s = .next { s with txlog := s.txlog ++ s.txFrame, ph := .poll } := by
  simp [engineStep, hp, engineSend, Draw.ok, txWrite, hq]

theorem engineStep_poll_level (d : Draw) (hp : s.ph = .poll) (hl : s.rxq.length = s.exp.toNat) :
    engineStep d s = .next { s with ph := .read } := by
  simp [engineStep, hp, enginePoll, rxLevel, hl]

theorem engineStep_read_ok (hp : s.ph = .read) (hl : s.exp.toNat ≤ s.rxq.length) :
    engineStep Draw.ok s =
      .next { s with rxq := s.rxq.drop s.exp.toNat, rxbuf := s.rxq.take s.exp.toNat, ph := .check } := by
  simp [engineStep, hp, engineRead, Draw.ok, rxRead, hl]

/-- The query `s` in CHECK of the response `r`, with its frame sent and nothing left inbound. -/
def State.received (s : State) (r : List Byte) (ms : List Move) : State :=
  { s with ph := .check, rxbuf := r, rxq := [], txlog := s.txlog ++ s.txFrame, sched := ms }

/-- A scheduled engine step comes first in a run. -/
theorem run_engine {k : Nat} {d : Draw} {ms : List Move} {t : State} (h : s.sched = .engine d :: ms)
    (ht : engineStep d { s with sched := ms } = .next t) :
    Host.Core.run Sys2Proof.core (k + 1) s = Host.Core.run Sys2Proof.core k t :=
  run_succ ((step_cons h).trans ht)

/-- FLUSH, SEND, the arrival of the response, POLL and READ bring the response to CHECK (rules R92 to R95). -/
theorem run_until_received {k : Nat} {r : List Byte} {ms : List Move} (hp : s.ph = .flush)
    (hq : isQuery s.echo = true) (hr : r.length = s.exp.toNat)
    (hs : s.sched = [.engine Draw.ok, .engine Draw.ok, .arrive r, .engine Draw.ok, .engine Draw.ok] ++ ms) :
    Host.Core.run Sys2Proof.core (k + 5) s = Host.Core.run Sys2Proof.core k (s.received r ms) := by
  have hall : r.take s.exp.toNat = r ∧ r.drop s.exp.toNat = [] := by simp [← hr]
  calc Host.Core.run Sys2Proof.core (k + 5) s
    _ = Host.Core.run Sys2Proof.core (k + 4)
          { s with
            ph := .send, rxq := [], sched := [.engine Draw.ok, .arrive r, .engine Draw.ok, .engine Draw.ok] ++ ms } :=
        run_engine hs (engineStep_flush_ok hp)
    _ = Host.Core.run Sys2Proof.core (k + 3)
          { s with
            ph := .poll, rxq := [], txlog := s.txlog ++ s.txFrame,
            sched := [.arrive r, .engine Draw.ok, .engine Draw.ok] ++ ms } :=
        run_engine rfl (engineStep_send_ok rfl (by exact hq))
    _ = Host.Core.run Sys2Proof.core (k + 2)
          { s with
            ph := .poll, rxq := r, txlog := s.txlog ++ s.txFrame, sched := [.engine Draw.ok, .engine Draw.ok] ++ ms } :=
        run_succ (arrivalAppendsAtTheTail _ r _ rfl)
    _ = Host.Core.run Sys2Proof.core (k + 1)
          { s with ph := .read, rxq := r, txlog := s.txlog ++ s.txFrame, sched := [.engine Draw.ok] ++ ms } :=
        run_engine rfl (engineStep_poll_level _ rfl (by exact hr))
    _ = Host.Core.run Sys2Proof.core k
          { s with
            ph := .check, rxbuf := r.take s.exp.toNat, rxq := r.drop s.exp.toNat, txlog := s.txlog ++ s.txFrame,
            sched := ms } :=
        run_engine rfl (engineStep_read_ok rfl (by exact hr.ge))
    _ = _ := by rw [hall.1, hall.2]; rfl

end

/-- Settles O42: five steps bring the response to CHECK, and CHECK delivers what stands in it by index. -/
theorem queryReturnsTheDecodedResponse : Obligations.QueryReturnsTheDecodedResponse := by
  intro s r ms h hp hr h0 h1 h3 hs
  have hq : isQuery s.echo = true := h.query_phase (.inl hp)
  have hb : s.busy = true := h.busy_of (by simp [hp])
  obtain ⟨herr, hesub, -, hvbat, hrcnt, -⟩ := h.no_result hb
  have hlen : r.length = expectedLength s.echo s.nlat.toNat := hr.trans (h.busy_exp hb)
  have hrun {t : State} (ht : engineCheck (s.received r ms) = .next t) :
      Host.Core.run Sys2Proof.core 6 s = .next t := by
    rw [run_until_received hp hq hr (ms := .engine Draw.ok :: ms) hs]
    exact run_engine rfl ((engineStep_check _ rfl).trans ht)
  have hecho : s.echo = 0x0F ∨ s.echo = 0x15 := by simpa [isQuery] using hq
  rcases hecho with he | he
  · have hlen6 : r.length = 6 := by simpa [he, expectedLength] using hlen
    refine ⟨_, hrun (engineCheck_battery rfl h0 h1 h3 he hlen6), rfl, rfl, rfl, rfl, herr, hesub,
      ⟨rfl, rfl, rfl, rfl, rfl, rfl, rfl⟩, rfl, rfl, fun _ => ⟨rfl, hrcnt, le16_toNat _ _⟩, fun hc => ?_⟩
    simp [he] at hc
  · have hlenp : r.length = 3 * s.nlat.toNat + 5 := by simpa [he, expectedLength] using hlen
    refine ⟨_, hrun (engineCheck_positions rfl h0 h1 h3 he hlenp), rfl, rfl, rfl, rfl, herr, hesub,
      ⟨rfl, rfl, rfl, rfl, rfl, rfl, rfl⟩, rfl, rfl, fun hc => ?_, fun _ => ⟨rfl, hvbat, rfl, fun i hi => ?_⟩⟩
    · simp [he] at hc
    · calc (rposOf (responsePositions r s.nlat.toNat))[i].toNat
          = ((responsePositions r s.nlat.toNat).getD i 0).toNat := by rw [rposOf_getElem]
        _ = _ := by rw [responsePositions_getD, apply_ite BitVec.toNat, le16_toNat]; rfl

/-! #### The primitives (rules R46, R48) -/

/-- Settles O33: each answer's outcome by the laws of the primitives, each outcome by the answer that names it. -/
theorem transportOutcomesAreExactlyTheContract : Obligations.TransportOutcomesAreExactlyTheContract := by
  intro n b s hn
  refine ⟨fun o => ?_, fun h => ⟨.ok, by simp [rxRead, h]⟩, fun k hk _ => ⟨.short k, ?_⟩, fun k _ => ⟨.fail k, rfl⟩,
    fun o => ?_, ⟨.ok, rfl⟩, fun p hp => ⟨.fail p.length, ?_⟩⟩
  · rcases rxRead_cases o s hn with hok | hshort | ⟨k, e⟩
    · exact .inl hok
    · exact .inr (.inl hshort)
    · exact .inr (.inr ⟨min k s.rxq.length, Nat.min_le_right _ _, by simp [e]⟩)
  · simp [rxRead, Nat.min_eq_left (Nat.le_sub_one_of_lt hk)]
  · rcases txWrite_cases b o s with e | ⟨k, e⟩
    · exact .inl e
    · exact .inr ⟨b.take k, List.take_prefix k b, e⟩
  · simp [txWrite, ← List.prefix_iff_eq_take.mp hp]

/-! #### The streams over one step (rules R40, R51, R52, R117) -/

/-- Everything a host write can do (rules R18, R34, R91): nothing, write a register, or START. -/
theorem hostWrite_cases (w : Write) (s : State) :
    hostWrite w s = .next s ∨
      (s.busy = false ∧ hostWrite w s = .next (writeRegister w s)) ∨
      (s.busy = false ∧ fetchCommand s = none ∧ hostWrite w s = .next (startBadOpcode s)) ∨
      (s.busy = false ∧ ∃ i, fetchCommand s = some i ∧ hostWrite w s = exec i s) := by
  cases hb : s.busy with
  | true => exact .inl (hostWrite_busy w hb)
  | false =>
    by_cases hw : ∃ b, w = .ctrl b
    · obtain ⟨b, rfl⟩ := hw
      cases b with
      | false => exact .inl (hostWrite_zero s)
      | true =>
        rw [hostWrite_start hb]
        cases hi : fetchCommand s with
        | none => exact .inr (.inr (.inl ⟨rfl, rfl, hostStart_none hi⟩))
        | some i => exact .inr (.inr (.inr ⟨rfl, i, rfl, hostStart_some hi⟩))
    · exact .inr (.inl ⟨rfl, hostWrite_register hb fun b hc => hw ⟨b, hc⟩⟩)

/-- A host write touches neither stream: a START sends and reads nothing yet. -/
theorem hostWrite_streams {w : Write} {s t : State} (h : hostWrite w s = .next t) : SameStreams s t := by
  rcases hostWrite_cases w s with e | ⟨-, e⟩ | ⟨-, -, e⟩ | ⟨-, i, -, e⟩ <;> rw [e] at h
  · cases h; exact ⟨rfl, rfl⟩
  · cases h; rw [writeRegister_eq_withOperands]; exact ⟨rfl, rfl⟩
  · cases h
    obtain ⟨-, hrxq, htxlog⟩ := startWith_operands (op := s.cmd) (n := s.nid) (enc := .error .badOpcode) (s := s)
    exact ⟨hrxq, htxlog⟩
  · obtain ⟨-, hrxq, htxlog⟩ := exec_frame h
    exact ⟨hrxq, htxlog⟩

/-- A move that is no reset sends only in SEND and takes from RXQ only in FLUSH or READ, both by the engine; only an arrival
adds to RXQ. -/
theorem moveStep_streams {m : Move} {s t : State} (hr : m ≠ .reset) (h : moveStep m s = .next t) :
    (t.txlog = s.txlog ∨ s.ph = .send ∧ ∃ p, p <+: s.txFrame ∧ t.txlog = s.txlog ++ p) ∧
      (t.rxq = s.rxq ∨ (s.ph = .flush ∨ s.ph = .read) ∧ (∃ d, m = .engine d) ∧ t.rxq <:+ s.rxq ∨
        ∃ b, m = .arrive b ∧ t.rxq = s.rxq ++ b) := by
  cases m with
  | write w =>
    obtain ⟨hrxq, htxlog⟩ := hostWrite_streams h
    exact ⟨.inl htxlog, .inl hrxq⟩
  | read _ => cases h; exact ⟨.inl rfl, .inl rfl⟩
  | arrive b => cases h; exact ⟨.inl rfl, .inr (.inr ⟨b, rfl, rfl⟩)⟩
  | engine d =>
    obtain ⟨-, htxlog, hrxq⟩ := engineStep_frame h
    exact ⟨htxlog, hrxq.imp_right fun ⟨hp, hq⟩ => .inl ⟨hp, ⟨d, rfl⟩, hq⟩⟩
  | reset => exact absurd rfl hr

/-- Settles O39, by the streams under each move and, with nothing scheduled, under an engine step. -/
theorem streamsMoveOnlyInTheirPhases : Obligations.StreamsMoveOnlyInTheirPhases := by
  intro s t h hr
  cases hs : s.sched with
  | nil =>
    rw [step_nil hs] at h
    by_cases hp : s.ph = .idle
    · rw [engineAlone, if_pos hp] at h
      cases h
      exact ⟨.inl rfl, .inl rfl⟩
    · rw [engineAlone_running hp] at h
      obtain ⟨-, htxlog, hrxq⟩ := engineStep_frame h
      exact ⟨htxlog, hrxq.imp_right fun ⟨hq, hd⟩ => .inl ⟨hq, .inl rfl, hd⟩⟩
  | cons m ms =>
    rw [step_cons hs] at h
    obtain ⟨htxlog, hrxq | ⟨hp, ⟨d, rfl⟩, hq⟩ | ⟨b, rfl, hq⟩⟩ := moveStep_streams (fun hm => hr ms (hm ▸ hs)) h
    · exact ⟨htxlog, .inl hrxq⟩
    · exact ⟨htxlog, .inr (.inl ⟨hp, .inr ⟨d, ms, rfl⟩, hq⟩)⟩
    · exact ⟨htxlog, .inr (.inr ⟨b, ms, rfl, hq⟩)⟩

/-! #### Halves and decoded instructions -/

/-- Settles O9. -/
theorem halvesSplitLittleEndian : Obligations.HalvesSplitLittleEndian :=
  ⟨fun v => ⟨lo8_toNat v, hi8_toNat v, le16_lo8_hi8 v⟩, le16_toNat⟩

/-- Settles O23, by the step's move (O47) and what that move runs. -/
theorem stepRunsTheDecodedInstruction : Obligations.StepRunsTheDecodedInstruction := by
  intro s ms i
  obtain ⟨hengine, hstart, halone⟩ := stepTakesOneMove s
  refine ⟨fun hs hb hf => ?_, fun d rest hs hp hd => ?_, fun rest hs hp hd => ?_⟩
  · exact (hstart ms hs hb).trans (hostStart_some hf)
  · calc step s = engineStep d { s with sched := ms } := hengine d ms hs
      _ = engineCheck { s with sched := ms } := engineStep_check d hp
      _ = exec i { s with sched := ms } := engineCheck_of_fetchResponse hd
  · calc step s = engineStep (Config.freeDraw s.draws) { s with draws := s.draws + 1 } := halone hs (by simp [hp])
      _ = engineCheck { s with draws := s.draws + 1 } := engineStep_check _ hp
      _ = exec i { s with draws := s.draws + 1 } := engineCheck_of_fetchResponse hd

end Sys2Proof.Machine

/-! ### Frames and the commands that load them (family 30_encoding) -/

namespace Sys2Proof.Machine

/-! #### Decoding what was encoded (rules R63 to R68, R88) -/

theorem decodeMove_payload {ids : List Byte} {ps : List Half} (d : Half) (rest : List Byte)
    (hl : ids.length = ps.length) (hn : ids.length ≤ 83) :
    decodeMove ((Instr.move ids ps d).payload ++ rest) = .ok (.move ids ps d, rest) := by
  have hc : (toByte ids.length).toNat = ids.length := toByte_toNat_of_lt (by omega)
  have hmax : ¬ids.length > Config.moveMax := not_lt.mpr hn
  simp only [Instr.payload, List.cons_append, decodeMove, hc, if_neg hmax, takeMoves_moveBody ids ps rest hl,
    le16_lo8_hi8]

theorem decodeIds_payload (mk : List Byte → Instr) {ids : List Byte} (rest : List Byte) (hn : ids.length ≤ 252) :
    decodeIds mk (toByte ids.length :: ids ++ rest) = .ok (mk ids, rest) := by
  have hc : (toByte ids.length).toNat = ids.length := toByte_toNat_of_lt (by omega)
  have hmax : ¬ids.length > Config.listMax := not_lt.mpr hn
  simp only [List.cons_append, decodeIds, hc, if_neg hmax, takeIds_append]

theorem decodeBatr_payload (len : Byte) (mv : Half) (rest : List Byte) :
    decodeBatr len ((Instr.batr len mv).payload ++ rest) = .ok (.batr len mv, rest) := by
  simp only [Instr.payload, List.cons_append, List.nil_append, decodeBatr, le16_lo8_hi8]

theorem decodePosr_payload (len c : Byte) (es : List PosEntry) (rest : List Byte) :
    decodePosr len es.length ((Instr.posr len c es).payload ++ rest) = .ok (.posr len c es, rest) := by
  simp only [Instr.payload, List.cons_append, decodePosr, takeEntries_entryBody]

/-- Past the sync bytes, which are right in every frame, the decoder of the frame's direction has the rest. -/
theorem decode_encode_command (i : Instr) (rest : List Byte) :
    decode .command (encode i ++ rest) = decodeCommand i.lengthByte i.opcode (i.payload ++ rest) := rfl

theorem decode_encode_response (echo : Byte) (n : Nat) (i : Instr) (rest : List Byte) :
    decode (.response echo n) (encode i ++ rest) =
      decodeResponse echo n i.lengthByte i.opcode (i.payload ++ rest) := rfl

/-- Settles O11: the opcode selects the payload's reader, and each reader undoes the writer of its payload. -/
theorem decodeUndoesEncode : Obligations.DecodeUndoesEncode := by
  intro i rest hwf
  cases i with
  | move ids ps d =>
    simp only [Instr.wf, Config.moveMax, Bool.and_eq_true, beq_iff_eq, decide_eq_true_eq] at hwf
    obtain ⟨hl, hn⟩ := hwf
    exact (decode_encode_command _ rest).trans (decodeMove_payload d rest hl hn)
  | batq => exact decode_encode_command .batq rest
  | unload ids => exact (decode_encode_command _ rest).trans (decodeIds_payload .unload rest (of_decide_eq_true hwf))
  | posq ids => exact (decode_encode_command _ rest).trans (decodeIds_payload .posq rest (of_decide_eq_true hwf))
  | batr len mv => exact (decode_encode_response _ _ _ rest).trans (decodeBatr_payload len mv rest)
  | posr len c es => exact (decode_encode_response _ _ _ rest).trans (decodePosr_payload len c es rest)

/-- Settles O10: each of these is the frame of the instruction it stands for, so it decodes by O11. -/
theorem sourceFramesDecode : Obligations.SourceFramesDecode :=
  ⟨decodeUndoesEncode (.move [5] [500] 1000) [] rfl, decodeUndoesEncode .batq [] rfl,
    decodeUndoesEncode (.unload [1, 2, 3]) [] rfl, decodeUndoesEncode (.posq [1, 2]) [] rfl,
    decodeUndoesEncode (.batr 4 2000) [] rfl, decodeUndoesEncode (.posr 0x0B 2 [⟨1, 1000⟩, ⟨2, 500⟩]) [] rfl⟩

/-! #### Encoding what was decoded -/

/-- The length byte of an accepted command's frame holds the frame's length less 2 (rules R60, R87). -/
theorem lengthByte_add_two {i : Instr} (hkey : i.key = .command) (hwf : i.wf = true) :
    i.lengthByte.toNat + 2 = (encode i).length := by
  obtain ⟨hc, hc252⟩ := count_le_countLimit hkey hwf
  obtain ⟨hmax, -⟩ := frameLength_le hc hc252
  have hlen := encode_length_eq_frameLength hkey hwf
  have hmin : 4 ≤ (encode i).length := by simp
  rw [lengthByte_eq_frameLength hkey, ← hlen, BitVec.toNat_ofNat]
  omega

/-- What the strict reverse parser answers is a command that decodes with nothing left over and with a right length byte. -/
theorem parseCommand_ok {f : List Byte} {i : Instr} (h : parseCommand f = .ok i) :
    decode .command f = .ok (i, []) ∧ (f.getD 2 0).toNat + 2 = f.length := by
  unfold parseCommand at h
  split at h
  · next hd =>
    split at h
    · next hl => cases h; exact ⟨hd, hl⟩
    · cases h
  · cases h
  · cases h

/-- Settles O12: forth by O11, back because the decoder fixes every byte but the length byte and the parser that one. -/
theorem reverseParserIsExact : Obligations.ReverseParserIsExact := by
  refine ⟨fun i hwf hkey => ?_, fun f i h => ?_⟩
  · have hlen := lengthByte_add_two hkey hwf
    have hd := decodeUndoesEncode i [] hwf
    rw [hkey, List.append_nil] at hd
    refine ⟨?_, hlen⟩
    rw [parseCommand, hd]
    exact if_pos hlen
  · obtain ⟨hd, hl⟩ := parseCommand_ok h
    obtain ⟨len, op, pl, rfl, hc⟩ := decode_command_ok hd
    obtain ⟨hkey, hwf, rfl, rfl, -⟩ := decodeCommand_ok hc
    have hlen : i.lengthByte = len := by
      have hi := lengthByte_add_two hkey hwf
      have hf : len.toNat + 2 = (i.payload ++ []).length + 4 := hl
      rw [encode_length] at hi
      rw [List.append_nil] at hf
      exact BitVec.eq_of_toNat_eq (by omega)
    exact ⟨hwf, hkey, by simp [encode, hlen]⟩

/-- Settles O13, by what the decoder of responses says of header and payload. -/
theorem responseDecodesToItsOwnBytes : Obligations.ResponseDecodesToItsOwnBytes := by
  intro echo n f rest i h
  obtain ⟨len, op, pl, rfl, hr⟩ := decode_response_ok h
  obtain ⟨hrow, rfl, rfl, rfl, hpl, hpos, hbat⟩ := decodeResponse_ok hr
  refine ⟨by rw [hpl]; rfl, rfl, hrow, fun he => ?_, fun he => ?_⟩
  · obtain ⟨hcount, hlen⟩ := hpos he
    exact ⟨hcount, by simp only [List.length_cons]; omega⟩
  · have hlen := hbat he
    simp only [List.length_cons]
    omega

/-! #### The opcode table (rule R77) -/

/-- The row of a direction and an opcode: only the battery query's row looks at the length byte. -/
def rowOf (isCommand : Bool) (op : Byte) : Row :=
  if isCommand ∧ op = opBattery then ⟨true, 0x5555020F, 0xFFFFFFFF⟩
  else ⟨isCommand, 0x55550000 + op.setWidth 32, 0xFFFF00FF⟩

theorem row_eq_rowOf (i : Instr) : i.row = rowOf i.row.isCommand i.opcode := by cases i <;> rfl

/-- A header with the right sync bytes and opcode is of the instruction's kind, a battery query's with its length byte. -/
theorem row_fits_header {i : Instr} {len : Byte} (pl : List Byte) (hlen : i = .batq → len = 2) :
    i.row.fits (0x55 :: 0x55 :: len :: i.opcode :: pl) = true := by
  have hmask (op : Byte) := Laws.Framing.mask_length len op
  cases i with
  | batq => simp [Row.fits, headWord, Instr.row, Instr.opcode, hlen]
  | _ => simp [Row.fits, headWord, Instr.row, Instr.opcode, hmask]

theorem row_isCommand_iff (i : Instr) : i.row.isCommand = true ↔ i.key = .command := by
  cases i <;> simp [Instr.row, Instr.key]

/-- Every row tests the opcode byte whole. -/
theorem opcode_of_fits {i : Instr} {f : List Byte} (h : i.row.fits f = true) : i.opcode = f.getD 3 0 := by
  have hmask : i.row.maskBits.setWidth 8 = BitVec.allOnes 8 := by cases i <;> simp [Instr.row, BitVec.allOnes]
  have hmatch : i.row.matchBits.setWidth 8 = i.opcode := by cases i <;> simp [Instr.row, Instr.opcode]
  have hhead : (headWord f).setWidth 8 = f.getD 3 0 := BitVec.setWidth_append_eq_right
  calc i.opcode = (headWord f &&& i.row.maskBits).setWidth 8 := by rw [eq_of_beq h, hmatch]
    _ = f.getD 3 0 := by rw [BitVec.setWidth_and, hmask, hhead, BitVec.and_allOnes]

/-- Settles O14: what decodes has the header of its row, and a row is told by its direction and the opcode byte. -/
theorem opcodeTableRowsAgree : Obligations.OpcodeTableRowsAgree := by
  refine ⟨fun key f rest i h => ?_, fun i j f hi hj hdir => ?_⟩
  · cases key with
    | command =>
      obtain ⟨len, op, pl, rfl, hc⟩ := decode_command_ok h
      obtain ⟨hkey, -, rfl, -, hlen⟩ := decodeCommand_ok hc
      exact ⟨row_fits_header pl hlen, by simp [row_isCommand_iff, hkey]⟩
    | response echo n =>
      obtain ⟨len, op, pl, rfl, hr⟩ := decode_response_ok h
      obtain ⟨hrow, rfl, -⟩ := decodeResponse_ok hr
      exact ⟨row_fits_header pl (by rintro rfl; cases hrow), by simp [hrow]⟩
  · rw [row_eq_rowOf i, row_eq_rowOf j, hdir, opcode_of_fits hi, opcode_of_fits hj]

/-! #### START of each command (rules R63 to R66, R72, R81 to R84) -/

/-- A START whose encoder rule gives a frame that TXBUF can hold and a length that EXP can hold. -/
theorem startWith_accepts {s : State} (op n : Byte) {f : List Byte} {e : Nat} {enc : Except Cause (List Byte × Nat)}
    (hb : s.busy = false) (henc : enc = .ok (f, e)) (hf : f.length ≤ 257) (he : e < 1024) :
    Started op n s (startWith op n enc s) ∧
      (startWith op n enc s).ph = (if isQuery op then .flush else .send) ∧
      (startWith op n enc s).exp.toNat = e ∧ (startWith op n enc s).txlen.toNat = f.length ∧
      (startWith op n enc s).txFrame = f := by
  rw [startWith_ok op n hb henc]
  refine ⟨accept_started op n f e s, rfl, ?_, ?_, accept_txFrame e _ hf⟩
  · exact Nat.mod_eq_of_lt he
  · exact Nat.mod_eq_of_lt (by omega)

/-- A START whose encoder rule raises sends nothing and encodes nothing. -/
theorem startWith_refuses {s : State} (op n : Byte) {c : Cause} {enc : Except Cause (List Byte × Nat)}
    (hb : s.busy = false) (henc : enc = .error c) :
    EndedWith c.err c.esub s (startWith op n enc s) ∧ SameStreams s (startWith op n enc s) ∧
      (startWith op n enc s).txbuf = s.txbuf ∧ (startWith op n enc s).txlen = s.txlen ∧
      (startWith op n enc s).exp = s.exp := by
  rw [startWith_error op n hb henc]
  exact ⟨raise_start_ended c op n s, ⟨rfl, rfl⟩, rfl, rfl, rfl⟩

/-- Where entry `k` of a MOVE stands in its frame (rule R63). -/
theorem encode_move_getElem? {ids : List Byte} {ps : List Half} (d : Half) {k : Nat} (hk : k < ids.length)
    (hk' : k < ps.length) :
    (encode (.move ids ps d))[7 + 3 * k]? = some ids[k] ∧
      (encode (.move ids ps d))[8 + 3 * k]? = some (lo8 ps[k]) ∧
      (encode (.move ids ps d))[9 + 3 * k]? = some (hi8 ps[k]) := by
  have hbody (j : Nat) : (encode (.move ids ps d))[j + 7]? = (moveBody ids ps)[j]? := rfl
  rw [show 7 + 3 * k = 3 * k + 7 by omega, show 8 + 3 * k = 3 * k + 1 + 7 by omega,
    show 9 + 3 * k = 3 * k + 2 + 7 by omega, hbody, hbody, hbody]
  exact moveBody_getElem? hk hk'

/-- Settles O15, by the three results of the encoder rule of MOVE. -/
theorem moveEncodesItsFrame : Obligations.MoveEncodesItsFrame := by
  intro ids ps d s hb
  refine ⟨fun hl hn => ?_, fun hl => ?_, fun hl hn => ?_⟩
  · have hlen : (encode (.move ids ps d)).length = 3 * ids.length + 7 :=
      encode_length_eq_frameLength rfl (by simp [Instr.wf, ← hl, hn])
    obtain ⟨hstart, hph, hexp, htxlen, hframe⟩ :=
      startWith_accepts opMove (toByte ids.length) hb (encodeMove_ok d hl hn) (by omega) (by decide)
    refine ⟨_, rfl, hstart, hph, BitVec.eq_of_toNat_eq hexp, htxlen.trans hlen, ?_⟩
    rw [hframe]
    exact ⟨hlen, rfl, fun k hk => encode_move_getElem? d hk (hl ▸ hk)⟩
  · exact ⟨_, rfl, startWith_refuses opMove (toByte ids.length) hb (encodeMove_mismatch d hl)⟩
  · exact ⟨_, rfl, startWith_refuses opMove (toByte ids.length) hb (encodeMove_range d hl hn)⟩

/-- Settles O17, by the two results of the encoder rule of UNLOAD. -/
theorem unloadEncodesItsFrame : Obligations.UnloadEncodesItsFrame := by
  intro ids s hb
  refine ⟨fun hn => ?_, fun hn => ?_⟩
  · have hlen : (encode (.unload ids)).length = ids.length + 5 :=
      encode_length_eq_frameLength rfl (by simpa [Instr.wf] using hn)
    obtain ⟨hstart, hph, hexp, htxlen, hframe⟩ :=
      startWith_accepts opUnload (toByte ids.length) hb (encodeUnload_ok hn) (by omega) (by decide)
    exact ⟨_, rfl, hstart, hph, BitVec.eq_of_toNat_eq hexp, htxlen.trans hlen, hframe⟩
  · exact ⟨_, rfl, startWith_refuses opUnload (toByte ids.length) hb (encodeUnload_range hn)⟩

/-- Settles O18, by the two results of the encoder rule of POSQ. -/
theorem posqEncodesItsFrame : Obligations.PosqEncodesItsFrame := by
  intro ids s hb
  refine ⟨fun hn => ?_, fun hn => ?_⟩
  · have hlen : (encode (.posq ids)).length = ids.length + 5 :=
      encode_length_eq_frameLength rfl (by simpa [Instr.wf] using hn)
    obtain ⟨hstart, hph, hexp, htxlen, hframe⟩ :=
      startWith_accepts opPosition (toByte ids.length) hb (encodePosq_ok hn) (by omega) (by omega)
    exact ⟨_, rfl, hstart, hph, hexp, htxlen.trans hlen, hframe⟩
  · exact ⟨_, rfl, startWith_refuses opPosition (toByte ids.length) hb (encodePosq_range hn)⟩

/-- Settles O16: the encoder rule of BATQ has no check. -/
theorem batqEncodesItsFrame : Obligations.BatqEncodesItsFrame := by
  intro s hb
  obtain ⟨hstart, hph, hexp, htxlen, hframe⟩ :=
    startWith_accepts opBattery s.nid (enc := encodeBatq) hb rfl (by decide) (by decide)
  exact ⟨_, rfl, hstart, hph, BitVec.eq_of_toNat_eq hexp, BitVec.eq_of_toNat_eq htxlen, hframe⟩

theorem fetchCommand_eq_none {s : State} (h1 : s.cmd ≠ opMove) (h2 : s.cmd ≠ opBattery) (h3 : s.cmd ≠ opUnload)
    (h4 : s.cmd ≠ opPosition) : fetchCommand s = none := by
  rw [fetchCommand, if_neg h1, if_neg h2, if_neg h3, if_neg h4]

/-- Settles O19: such a CMD selects no command, and its START raises. -/
theorem illegalOpcodeIsRefusedAtStart : Obligations.IllegalOpcodeIsRefusedAtStart := by
  intro s ms hs hb h1 h2 h3 h4
  have hstep : step s = .next (startBadOpcode { s with sched := ms }) :=
    calc step s = hostWrite (.ctrl true) { s with sched := ms } := step_cons hs
      _ = hostStart { s with sched := ms } := hostWrite_start hb
      _ = _ := hostStart_none (fetchCommand_eq_none h1 h2 h3 h4)
  obtain ⟨hend, ⟨hrxq, htxlog⟩, htx⟩ :=
    startWith_refuses (s := { s with sched := ms }) s.cmd s.nid (c := .badOpcode) hb rfl
  exact ⟨_, hstep, hend, ⟨hrxq, htxlog⟩, htx⟩

/-! #### Loading the operands of a command line (rule R75) -/

/-- Operand writes change operand registers and nothing else. -/
theorem loadOperands_eq_withOperands (ws : List Write) (s : State) :
    loadOperands ws s = s.withOperands (loadOperands ws s) := by
  induction ws generalizing s with
  | nil => rfl
  | cons w ws ih =>
    calc loadOperands ws (writeRegister w s)
        = (writeRegister w s).withOperands (loadOperands ws (writeRegister w s)) := ih _
      _ = s.withOperands (loadOperands ws (writeRegister w s)) := by
        rw [writeRegister_eq_withOperands w s]; rfl

theorem loadOperands_frame (ws : List Write) (s : State) :
    (loadOperands ws s).busy = s.busy ∧ (loadOperands ws s).sched = s.sched ∧ SameStreams s (loadOperands ws s) := by
  rw [loadOperands_eq_withOperands]
  exact ⟨rfl, rfl, rfl, rfl⟩

/-- An array that agrees with a list on the list's indices begins with the list. -/
theorem toList_take_of_getElem {α : Type} {v : Vector α 256} {l : List α} (hl : l.length ≤ 256)
    (h : ∀ (i : Nat) (hi : i < l.length), v[i] = l[i]) : v.toList.take l.length = l := by
  apply List.ext_getElem
  · simp [hl]
  · intro i _ hi
    simpa using h i hi

theorem loadOperands_idWrites {ids : List Byte} (h : ids.length ≤ 255) (s : State) :
    ∃ v, loadOperands (idWrites 0 ids) s = { s with ids := v } ∧ v.toList.take ids.length = ids := by
  obtain ⟨v, hload, hv⟩ := load_ids ids 0 s (by omega)
  refine ⟨v, hload, toList_take_of_getElem (by omega) fun i hi => ?_⟩
  simp [hv i (by omega), hi]

theorem loadOperands_posWrites {ps : List Half} (h : ps.length ≤ 255) (s : State) :
    ∃ v, loadOperands (posWrites 0 ps) s = { s with poss := v } ∧ v.toList.take ps.length = ps := by
  obtain ⟨v, hload, hv⟩ := load_pos ps 0 s (by omega)
  refine ⟨v, hload, toList_take_of_getElem (by omega) fun i hi => ?_⟩
  simp [hv i (by omega), hi]

/-- A command's id list, loaded behind its opcode and count. -/
theorem loadOperands_idList (op : Byte) {ids : List Byte} (h : ids.length ≤ 255) (s : State) :
    ∃ v, loadOperands ([.cmd op, .nid (toByte ids.length)] ++ idWrites 0 ids) s =
        { s with cmd := op, nid := toByte ids.length, ids := v } ∧
      v.toList.take (toByte ids.length).toNat = ids := by
  obtain ⟨v, hload, hv⟩ := loadOperands_idWrites h { s with cmd := op, nid := toByte ids.length }
  refine ⟨v, (loadOperands_append _ _ s).trans hload, ?_⟩
  rwa [toByte_toNat_of_lt (by omega)]

/-- The operand writes of a command put it where START takes it, and leave TMO, which is no operand of a command. -/
theorem fetchCommand_loadOperands {i : Instr} (s : State) (hkey : i.key = .command) (hcount : i.count ≤ 255)
    (hpos : ∀ ids ps d, i = .move ids ps d → ps.length ≤ 255) :
    fetchCommand (loadOperands (operandWrites i) s) = some i ∧ (loadOperands (operandWrites i) s).tmo = s.tmo := by
  cases i with
  | move ids ps d =>
    have hps := hpos ids ps d rfl
    obtain ⟨v, hload, hv⟩ := loadOperands_idList opMove hcount s
    obtain ⟨w, hload', hw⟩ := loadOperands_posWrites hps
      { s with cmd := opMove, nid := toByte ids.length, ids := v, npos := toByte ps.length }
    have hall : loadOperands (operandWrites (.move ids ps d)) s =
        { s with
          cmd := opMove, nid := toByte ids.length, ids := v, npos := toByte ps.length, poss := w,
          dur := mask16 d.toNat } := by
      rw [operandWrites, loadOperands_append, loadOperands_append, loadOperands_append, hload]
      exact congrArg (loadOperands [.dur d.toNat]) hload'
    rw [hall]
    refine ⟨?_, rfl⟩
    simp [fetchCommand, State.idList, State.posList, mask16, hv, hw, toByte_toNat_of_lt (Nat.lt_succ_of_le hps)]
  | batq => exact ⟨rfl, rfl⟩
  | unload ids =>
    obtain ⟨v, hload, hv⟩ := loadOperands_idList opUnload hcount s
    rw [operandWrites, hload]
    exact ⟨congrArg (fun l => some (Instr.unload l)) hv, rfl⟩
  | posq ids =>
    obtain ⟨v, hload, hv⟩ := loadOperands_idList opPosition hcount s
    rw [operandWrites, hload]
    exact ⟨congrArg (fun l => some (Instr.posq l)) hv, rfl⟩
  | batr _ _ => cases hkey
  | posr _ _ _ => cases hkey

theorem ctrl_not_mem_idWrites (b : Bool) (k : Nat) (ids : List Byte) : .ctrl b ∉ idWrites k ids := by
  induction ids generalizing k with
  | nil => simp [idWrites]
  | cons v vs ih => simp [idWrites, ih]

theorem ctrl_not_mem_posWrites (b : Bool) (k : Nat) (ps : List Half) : .ctrl b ∉ posWrites k ps := by
  induction ps generalizing k with
  | nil => simp [posWrites]
  | cons v vs ih => simp [posWrites, ih]

/-- The START that ends a command line is not among its operand writes. -/
theorem ctrl_not_mem_operandWrites (i : Instr) (b : Bool) : .ctrl b ∉ operandWrites i := by
  cases i <;> simp [operandWrites, ctrl_not_mem_idWrites, ctrl_not_mem_posWrites]

theorem writeRegister_withSched (w : Write) (s : State) (ms : List Move) :
    { writeRegister w s with sched := ms } = writeRegister w { s with sched := ms } := by cases w <;> rfl

theorem writeRegister_busy (w : Write) (s : State) : (writeRegister w s).busy = s.busy := by cases w <;> rfl

theorem writeRegister_sched (w : Write) (s : State) : (writeRegister w s).sched = s.sched := by cases w <;> rfl

/-- A run over scheduled operand writes while BUSY = 0 loads them in order. -/
theorem run_writes {ws : List Write} {s : State} {ms : List Move} (hw : ∀ b, .ctrl b ∉ ws) (hb : s.busy = false)
    (hs : s.sched = ws.map Move.write ++ ms) :
    Host.Core.run Sys2Proof.core ws.length s = .next (loadOperands ws { s with sched := ms }) := by
  induction ws generalizing s with
  | nil => exact congrArg (fun l => Host.Outcome.next { s with sched := l }) hs
  | cons w ws ih =>
    have hne (b) : w ≠ .ctrl b := fun hc => hw b (hc ▸ List.mem_cons_self)
    have hws (b) : .ctrl b ∉ ws := fun hm => hw b (List.mem_cons_of_mem w hm)
    calc Host.Core.run Sys2Proof.core (ws.length + 1) s
      _ = Host.Core.run Sys2Proof.core ws.length (writeRegister w { s with sched := ws.map Move.write ++ ms }) :=
          run_succ (step_write hs hb hne)
      _ = .next (loadOperands ws
            { writeRegister w { s with sched := ws.map Move.write ++ ms } with sched := ms }) :=
          ih hws ((writeRegister_busy w _).trans hb) (writeRegister_sched w _)
      _ = .next (loadOperands (w :: ws) { s with sched := ms }) := by rw [writeRegister_withSched]; rfl

/-- Settles O22: the run loads the operands, which is all that START looks at. -/
theorem commandLineLoadsItsOperands : Obligations.CommandLineLoadsItsOperands := by
  intro i s ms hkey hcount hpos hb hs
  obtain ⟨hfetch, htmo⟩ := fetchCommand_loadOperands { s with sched := ms } hkey hcount hpos
  obtain ⟨hbusy, hsched, ⟨hrxq, htxlog⟩⟩ := loadOperands_frame (operandWrites i) { s with sched := ms }
  exact ⟨_, run_writes (ctrl_not_mem_operandWrites i) hb hs, hfetch, hsched, hbusy.trans hb, htmo, ⟨hrxq, htxlog⟩⟩

/-! #### Placing one instruction (log entry 6) -/

/-- A START that is placed runs the command of the operand registers. -/
theorem step_placeStart {i : Instr} {s : State} (h : fetchCommand s = some i) :
    step (placeStart s) = exec i { placeStart s with sched := s.sched } := by
  obtain ⟨hcommand, -⟩ := stepRunsTheDecodedInstruction (placeStart s) s.sched i
  exact hcommand rfl rfl h

/-- A CHECK that is placed runs the response that its bytes decode to. -/
theorem step_placeResponse {i : Instr} {f rest : List Byte} {echo : Byte} {n : Nat} (e : Nat) (s : State)
    (hn : n ≤ 252) (h : decode (.response echo n) f = .ok (i, rest)) :
    step (placeResponse f echo n e s) = exec i { placeResponse f echo n e s with sched := s.sched } := by
  obtain ⟨-, hresponse, -⟩ := stepRunsTheDecodedInstruction (placeResponse f echo n e s) s.sched i
  have hnlat : (toByte n).toNat = n := toByte_toNat_of_lt (by omega)
  exact hresponse Draw.ok rest rfl rfl (hnlat.symm ▸ h)

/-- A command is placed by its operand writes and a START. -/
theorem placeInstr_command {i : Instr} (s : State) (hkey : i.key = .command) :
    placeInstr i s = placeStart (loadOperands (operandWrites i) s) := by
  cases i with
  | move _ _ _ => rfl
  | batq => rfl
  | unload _ => rfl
  | posq _ => rfl
  | batr _ _ => cases hkey
  | posr _ _ _ => cases hkey

theorem step_placeInstr_command {i : Instr} (s : State) (hkey : i.key = .command) (hwf : i.wf = true) :
    step (placeInstr i s) = exec i { placeInstr i s with sched := s.sched } := by
  obtain ⟨-, hcount⟩ := count_le_countLimit hkey hwf
  have hpos : ∀ ids ps d, i = .move ids ps d → ps.length ≤ 255 := by
    rintro ids ps d rfl
    simp only [Instr.wf, Bool.and_eq_true, beq_iff_eq] at hwf
    simp only [Instr.count] at hcount
    omega
  obtain ⟨hfetch, -⟩ := fetchCommand_loadOperands s hkey (by omega) hpos
  obtain ⟨-, hsched, -⟩ := loadOperands_frame (operandWrites i) s
  rw [placeInstr_command s hkey, step_placeStart hfetch, hsched]

/-- Settles O24: a placed command is what START fetches, and a placed response is decoded back from its frame by O11. -/
theorem placedInstructionRunsNext : Obligations.PlacedInstructionRunsNext := by
  intro i s hwf
  have hdecode := decodeUndoesEncode i [] hwf
  rw [List.append_nil] at hdecode
  cases i with
  | move _ _ _ => exact step_placeInstr_command s rfl hwf
  | batq => exact step_placeInstr_command s rfl hwf
  | unload _ => exact step_placeInstr_command s rfl hwf
  | posq _ => exact step_placeInstr_command s rfl hwf
  | batr _ _ => exact step_placeResponse _ s (Nat.zero_le _) hdecode
  | posr _ _ _ => exact step_placeResponse _ s (of_decide_eq_true hwf) hdecode

end Sys2Proof.Machine

/-! ### What the frame depends on (family 40_encode_commands) -/

namespace Sys2Proof.Machine

/-! #### An accepted START loads the frame of the command it fetched (rule R91) -/

/-- The frame of a legal command fits in TXBUF (rule R27). -/
theorem encode_length_le {i : Instr} (hkey : i.key = .command) (hwf : i.wf = true) : (encode i).length ≤ 257 := by
  obtain ⟨hc, hc252⟩ := count_le_countLimit hkey hwf
  obtain ⟨hlen, -⟩ := frameLength_le hc hc252
  rwa [encode_length_eq_frameLength hkey hwf]

/-- A START from BUSY = 0 is accepted only where its encoder rule passes; the frame is then the one that the rule gives. -/
theorem startWith_txFrame_of_busy {op n : Byte} {enc : Except Cause (List Byte × Nat)} {s : State} {i : Instr}
    (hb : s.busy = false) (hkey : i.key = .command)
    (henc : ∀ f e, enc = .ok (f, e) → i.wf = true ∧ f = encode i) (hacc : (startWith op n enc s).busy = true) :
    i.wf = true ∧ (startWith op n enc s).txFrame = encode i := by
  rcases startWith_cases op n enc s with ⟨hb', -⟩ | ⟨-, c, -, e⟩ | ⟨-, f, x, hok, e⟩
  · exact absurd hb' (by simp [hb])
  · rw [e] at hacc
    cases hacc
  · obtain ⟨hwf, rfl⟩ := henc f x hok
    rw [e]
    exact ⟨hwf, accept_txFrame x _ (encode_length_le hkey hwf)⟩

/-- A command that is accepted is well formed, and TXBUF holds its frame. -/
theorem exec_txFrame_of_busy {i : Instr} {s t : State} (hb : s.busy = false) (hkey : i.key = .command)
    (ht : exec i s = .next t) (hacc : t.busy = true) : i.wf = true ∧ t.txFrame = encode i := by
  cases i with
  | move ids ps d =>
    cases ht
    refine startWith_txFrame_of_busy hb hkey (fun f e hok => ?_) hacc
    obtain ⟨hl, hn, hf, -⟩ := encodeMove_ok_inv hok
    exact ⟨by simp [Instr.wf, ← hl, hn], hf⟩
  | batq =>
    cases ht
    refine startWith_txFrame_of_busy hb hkey (fun f e hok => ?_) hacc
    cases hok
    exact ⟨rfl, rfl⟩
  | unload ids =>
    cases ht
    refine startWith_txFrame_of_busy hb hkey (fun f e hok => ?_) hacc
    obtain ⟨hn, hf, -⟩ := encodeUnload_ok_inv hok
    exact ⟨by simpa [Instr.wf] using hn, hf⟩
  | posq ids =>
    cases ht
    refine startWith_txFrame_of_busy hb hkey (fun f e hok => ?_) hacc
    obtain ⟨hn, hf, -⟩ := encodePosq_ok_inv hok
    exact ⟨by simpa [Instr.wf] using hn, hf⟩
  | batr _ _ => cases hkey
  | posr _ _ _ => cases hkey

/-- START takes commands only, never a response. -/
theorem fetchCommand_key {s : State} {i : Instr} (h : fetchCommand s = some i) : i.key = .command := by
  unfold fetchCommand at h
  split_ifs at h <;> cases h <;> rfl

/-- An accepted START fetched a well-formed command and left its frame in TXBUF. -/
theorem hostStart_txFrame_of_busy {s t : State} (hb : s.busy = false) (ht : hostStart s = .next t) (hacc : t.busy = true) :
    ∃ i, fetchCommand s = some i ∧ i.wf = true ∧ t.txFrame = encode i := by
  cases hi : fetchCommand s with
  | some i =>
    rw [hostStart_some hi] at ht
    exact ⟨i, rfl, exec_txFrame_of_busy hb (fetchCommand_key hi) ht hacc⟩
  | none =>
    rw [hostStart_none hi, startBadOpcode, startWith_error _ _ hb rfl] at ht
    cases ht
    cases hacc

/-! #### The command depends on the operands below NID (rule R85) -/

theorem fetchCommand_move {s : State} (h : s.cmd = opMove) :
    fetchCommand s = some (.move (s.idList s.nid.toNat) (s.posList s.npos.toNat) s.dur) := by
  rw [fetchCommand, if_pos h]

/-- A well-formed MOVE has as many positions as ids, so NPOS is no freedom of its own (rule R81). -/
theorem npos_eq_nid_of_wf {s : State} {i : Instr} (hmove : s.cmd = opMove) (h : fetchCommand s = some i)
    (hwf : i.wf = true) : s.npos = s.nid := by
  rw [fetchCommand_move hmove] at h
  cases h
  simp only [Instr.wf, Bool.and_eq_true, beq_iff_eq, idList_length, posList_length] at hwf
  exact BitVec.eq_of_toNat_eq hwf.1.symm

/-- Arrays that agree below an index begin with the same list. -/
theorem toList_take_congr {α : Type} {u v : Vector α 256} {n : Nat}
    (h : ∀ (i : Nat) (_ : i < 256), i < n → u[i] = v[i]) : u.toList.take n = v.toList.take n := by
  apply List.ext_getElem
  · simp
  · intro i hu _
    have hi : i < n ∧ i < 256 := by simpa using hu
    simpa using h i hi.2 hi.1

/-- The operands that a command is made of: the positions count for a MOVE alone. -/
theorem fetchCommand_congr {s t : State} (hcmd : s.cmd = t.cmd) (hdur : s.dur = t.dur)
    (hids : s.idList s.nid.toNat = t.idList t.nid.toNat)
    (hpos : s.cmd = opMove → s.posList s.npos.toNat = t.posList t.npos.toNat) : fetchCommand s = fetchCommand t := by
  by_cases hmove : s.cmd = opMove
  · rw [fetchCommand_move hmove, fetchCommand_move (hcmd ▸ hmove), hids, hpos hmove, hdur]
  · rw [fetchCommand, fetchCommand, ← hcmd, hids, if_neg hmove, if_neg hmove]

/-- Settles O21: an accepted START loads the frame of the command it fetched, and being accepted fixes NPOS for a MOVE, so
the two commands are the same. -/
theorem frameDependsOnOperandsOnly : Obligations.FrameDependsOnOperandsOnly := by
  intro s₁ s₂ t₁ t₂ hb₁ hb₂ hcmd hnid hdur hentries ht₁ ht₂ hacc₁ hacc₂
  obtain ⟨i₁, hi₁, hwf₁, hframe₁⟩ := hostStart_txFrame_of_busy hb₁ ht₁ hacc₁
  obtain ⟨i₂, hi₂, hwf₂, hframe₂⟩ := hostStart_txFrame_of_busy hb₂ ht₂ hacc₂
  have hids : s₁.idList s₁.nid.toNat = s₂.idList s₂.nid.toNat := by
    rw [← hnid]
    exact toList_take_congr fun i h hi => (hentries i h hi).1
  have hpos (hmove : s₁.cmd = opMove) : s₁.posList s₁.npos.toNat = s₂.posList s₂.npos.toNat := by
    rw [npos_eq_nid_of_wf hmove hi₁ hwf₁, npos_eq_nid_of_wf (hcmd ▸ hmove) hi₂ hwf₂, ← hnid]
    exact toList_take_congr fun i h hi => (hentries i h hi).2
  have hi : i₁ = i₂ := Option.some.inj (hi₁.symm.trans ((fetchCommand_congr hcmd hdur hids hpos).trans hi₂))
  rw [hframe₁, hframe₂, hi]

end Sys2Proof.Machine

/-! ### Exchanges phase by phase (family 41_exchange_and_decode) -/

namespace Sys2Proof.Machine

/-! #### The two ends of a command, with other bytes in the streams -/

/-- An error raised by a phase that has moved bytes: neither the operand registers nor the inputs see the move. -/
theorem raise_streams_ended (c : Cause) (s : State) (q l : List Byte) :
    EndedWith c.err c.esub s (raise c { s with rxq := q, txlog := l }) :=
  { raise_ended c { s with rxq := q, txlog := l } with
    operands := ⟨rfl, rfl, rfl, rfl, rfl, rfl, rfl⟩
    inputs := ⟨rfl, rfl⟩ }

theorem raise_sameLatches (c : Cause) (s : State) (q l : List Byte) :
    SameLatches s (raise c { s with rxq := q, txlog := l }) :=
  ⟨rfl, rfl, rfl, rfl, rfl, rfl, rfl⟩

/-- A command ends well with any result and any bytes sent (rule R99). -/
theorem complete_result_completed (s : State) (k : BitVec 2) (mv : Half) (n : Byte) (ps : Vector Half 256)
    (l : List Byte) :
    Completed s (complete { s with rkind := k, vbat := mv, rcnt := n, rpos := ps, txlog := l }) where
  busy := rfl
  done := rfl
  ph := rfl
  err := rfl
  esub := rfl
  operands := ⟨rfl, rfl, rfl, rfl, rfl, rfl, rfl⟩
  latches := ⟨rfl, rfl, rfl, rfl, rfl, rfl, rfl⟩
  inputs := ⟨rfl, rfl⟩

theorem isQuery_iff (op : Byte) : isQuery op = true ↔ op = opBattery ∨ op = opPosition := by
  simp [isQuery]

/-! #### One engine step is the phase that PH names (rule R103) -/

theorem engineStep_idle {s : State} (d : Draw) (hp : s.ph = .idle) : engineStep d s = .next s := by
  rw [engineStep, hp]

theorem engineStep_flush {s : State} (d : Draw) (hp : s.ph = .flush) : engineStep d s = .next (engineFlush d.rx s) := by
  rw [engineStep, hp]

theorem engineStep_send {s : State} (d : Draw) (hp : s.ph = .send) : engineStep d s = .next (engineSend d.tx s) := by
  rw [engineStep, hp]

theorem engineStep_poll {s : State} (d : Draw) (hp : s.ph = .poll) : engineStep d s = .next (enginePoll s) := by
  rw [engineStep, hp]

theorem engineStep_read {s : State} (d : Draw) (hp : s.ph = .read) : engineStep d s = .next (engineRead d.rx s) := by
  rw [engineStep, hp]

/-! #### FLUSH, answer by answer (rule R92) -/

theorem engineFlush_empty {s : State} (o : RxOutcome) (h : s.rxq = []) : engineFlush o s = { s with ph := .send } := by
  simp [engineFlush, rxLevel, h]

section
variable {s : State} (h : s.rxq ≠ [])
include h

theorem engineFlush_ok : engineFlush .ok s = { s with rxq := [], ph := .send } := by
  simp [engineFlush, rxLevel, rxRead, h]

/-- A short read gives fewer bytes than the sample saw, whatever the answer says (rule R48). -/
theorem engineFlush_short (k : Nat) :
    engineFlush (.short k) s = raise .flushShort { s with rxq := s.rxq.drop (min k (s.rxq.length - 1)) } := by
  simp [engineFlush, rxLevel, rxRead, h]

theorem engineFlush_fail (k : Nat) :
    engineFlush (.fail k) s = raise .flushFail { s with rxq := s.rxq.drop k } := by
  simp [engineFlush, rxLevel, rxRead, h]

end

/-- Settles O29, by the equation of FLUSH for each answer. -/
theorem flushDiscardsWhatOneSampleSaw : Obligations.FlushDiscardsWhatOneSampleSaw := by
  intro d s hp
  rw [engineStep_flush d hp]
  refine ⟨fun h => congrArg _ (engineFlush_empty _ h), fun h => ⟨fun hd => ?_, fun k hd => ?_, fun k hd => ?_⟩⟩
  · rw [hd, engineFlush_ok h]
  · rw [hd, engineFlush_short h]
    have hlen : 0 < s.rxq.length := List.length_pos_iff.mpr h
    exact ⟨_, min k (s.rxq.length - 1), rfl, raise_streams_ended .flushShort s _ _, raise_sameLatches _ s _ _, rfl,
      by omega, rfl, by omega⟩
  · rw [hd, engineFlush_fail h]
    exact ⟨_, rfl, raise_streams_ended .flushFail s _ _, raise_sameLatches _ s _ _, rfl, rfl⟩

/-! #### SEND, answer by answer (rule R93) -/

theorem engineSend_ok_query {s : State} (h : isQuery s.echo = true) :
    engineSend .ok s = { s with txlog := s.txlog ++ s.txFrame, ph := .poll } := by
  simp [engineSend, txWrite, h]

theorem engineSend_ok_command {s : State} (h : ¬isQuery s.echo = true) :
    engineSend .ok s = complete { s with txlog := s.txlog ++ s.txFrame } := by
  simp [engineSend, txWrite, h]

theorem engineSend_fail (k : Nat) (s : State) :
    engineSend (.fail k) s = raise .writeFail { s with txlog := s.txlog ++ s.txFrame.take k } := rfl

/-- Settles O30, by the equation of SEND for each answer. -/
theorem sendHandsOverTheFrame : Obligations.SendHandsOverTheFrame := by
  intro d s hp
  rw [engineStep_send d hp]
  refine ⟨fun hd hq => ?_, fun hd hb hpos => ?_, fun k hd => ?_⟩
  · rw [hd, engineSend_ok_query ((isQuery_iff _).mpr hq)]
  · rw [hd, engineSend_ok_command fun hq => ((isQuery_iff _).mp hq).elim hb hpos]
    exact ⟨_, rfl, complete_result_completed s _ _ _ _ _, rfl, rfl, rfl, rfl, rfl, rfl⟩
  · rw [hd, engineSend_fail]
    exact ⟨_, rfl, raise_streams_ended .writeFail s _ _, raise_sameLatches _ s _ _, rfl, rfl⟩

/-! #### POLL, sample by sample (rule R94) -/

theorem enginePoll_expired {s : State} (h : s.rxq.length ≠ s.exp.toNat) (hc : s.pcnt = s.tmo) :
    enginePoll s = raise .pollExpired s :=
  (if_neg h).trans (if_pos hc)

theorem enginePoll_again {s : State} (h : s.rxq.length ≠ s.exp.toNat) (hc : s.pcnt ≠ s.tmo) :
    enginePoll s = { s with pcnt := s.pcnt + 1 } :=
  (if_neg h).trans (if_neg hc)

/-- Below TMO the poll counter counts on without a wrap (rule R30). -/
theorem pcnt_add_one {s : State} (h : s.pcnt.toNat < s.tmo.toNat) : (s.pcnt + 1).toNat = s.pcnt.toNat + 1 := by
  bv_omega

/-- Settles O31, by the equation of POLL for each sample. -/
theorem pollTestsEquality : Obligations.PollTestsEquality := by
  intro d s hp
  refine ⟨engineStep_poll_level d hp, fun h hc => ?_, fun h hc => ?_⟩
  · rw [engineStep_poll d hp, enginePoll_expired h hc]
    exact ⟨_, rfl, raise_ended .pollExpired s, raise_sameLatches _ s _ _, ⟨rfl, rfl⟩⟩
  · rw [engineStep_poll d hp, enginePoll_again h hc]
    exact ⟨_, rfl, pcnt_add_one, rfl⟩

/-! #### READ, answer by answer (rule R95) -/

theorem engineRead_ok {s : State} (h : s.exp.toNat ≤ s.rxq.length) :
    engineRead .ok s =
      { s with rxq := s.rxq.drop s.exp.toNat, rxbuf := s.rxq.take s.exp.toNat, ph := .check } := by
  simp [engineRead, rxRead, h]

theorem engineRead_short (k : Nat) (s : State) :
    engineRead (.short k) s = raise .shortRead { s with rxq := s.rxq.drop (min k (s.exp.toNat - 1)) } := rfl

theorem engineRead_fail (k : Nat) (s : State) :
    engineRead (.fail k) s = raise .readFail { s with rxq := s.rxq.drop k } := rfl

/-- Settles O32, by the equation of READ for each answer. -/
theorem readTakesExactlyTheExpectedBytes : Obligations.ReadTakesExactlyTheExpectedBytes := by
  intro d s hp he hl
  rw [engineStep_read d hp]
  refine ⟨fun hd => ?_, fun k hd => ?_, fun k hd => ?_⟩
  · rw [hd, engineRead_ok hl]
    exact ⟨_, rfl, List.length_take_of_le hl, (List.take_append_drop _ _).symm, rfl⟩
  · rw [hd, engineRead_short]
    exact ⟨_, min k (s.exp.toNat - 1), rfl, raise_streams_ended .shortRead s _ _, raise_sameLatches _ s _ _, rfl,
      by omega, rfl, by omega⟩
  · rw [hd, engineRead_fail]
    exact ⟨_, rfl, raise_streams_ended .readFail s _ _, raise_sameLatches _ s _ _, rfl, rfl⟩

/-! #### Responses (rules R96 to R98) -/

section
variable {s : State} (hp : s.ph = .check)
include hp

theorem execBatr_delivers (len : Byte) (mv : Half) (he : s.echo = opBattery) :
    execBatr len mv s = .next (complete { s with vbat := mv, rkind := kindBattery }) := by
  simp [execBatr, hp, he]

theorem execBatr_badEcho (len : Byte) (mv : Half) (he : s.echo ≠ opBattery) :
    execBatr len mv s = .next (raise .badEcho s) := by
  rw [execBatr, if_neg (not_not.mpr hp), if_pos he]

theorem execPosr_delivers (len c : Byte) {es : List PosEntry} (he : s.echo = opPosition)
    (hn : s.nlat.toNat ≤ es.length) :
    execPosr len c es s = .next (complete { s with
      rpos := rposOf ((es.take s.nlat.toNat).map PosEntry.pos), rcnt := s.nlat, rkind := kindPositions }) := by
  simp [execPosr, hp, he, hn]

theorem execPosr_fault (len c : Byte) {es : List PosEntry} (he : s.echo = opPosition)
    (hn : es.length < s.nlat.toNat) : execPosr len c es s = .fault .rxbufIndex := by
  simp [execPosr, hp, he, hn]

theorem execPosr_badEcho (len c : Byte) (es : List PosEntry) (he : s.echo ≠ opPosition) :
    execPosr len c es s = .next (raise .badEcho s) := by
  rw [execPosr, if_neg (not_not.mpr hp), if_pos he]

end

/-- Settles O25. -/
theorem batrDeliversMillivolts : Obligations.BatrDeliversMillivolts := by
  intro len mv s hp he
  exact ⟨_, execBatr_delivers hp len mv he, rfl, rfl, rfl, rfl, complete_result_completed s _ _ _ _ _, ⟨rfl, rfl⟩⟩

/-- The position of group `i` of the request's groups, and 0 where the request has no id (rule R98). -/
theorem rposOf_take_pos {es : List PosEntry} {n : Nat} (hn : n ≤ es.length) {i : Nat} (h : i < 256) :
    (rposOf ((es.take n).map PosEntry.pos))[i] =
      if hi : i < n then (es[i]'(Nat.lt_of_lt_of_le hi hn)).pos else 0 := by
  rw [rposOf_getElem]
  by_cases hi : i < n
  · simp [hi, Nat.lt_of_lt_of_le hi hn]
  · simp [hi]

/-- Settles O26, by the two results of a POSR in CHECK of its own query. -/
theorem posrDeliversPositions : Obligations.PosrDeliversPositions := by
  intro len c es s hp he
  refine ⟨fun hn => ?_, fun hn => execPosr_fault hp len c he hn⟩
  exact ⟨_, execPosr_delivers hp len c he hn, fun i h => rposOf_take_pos hn h, rfl, rfl, rfl,
    complete_result_completed s _ _ _ _ _, ⟨rfl, rfl⟩⟩

/-- Settles O27, for either response. -/
theorem responseNeedsItsRequest : Obligations.ResponseNeedsItsRequest := by
  intro i s hi
  have hraise : EndedWith 4 3 s (raise .badEcho s) ∧ SameLatches s (raise .badEcho s) ∧
      SameStreams s (raise .badEcho s) :=
    ⟨raise_ended .badEcho s, raise_sameLatches _ s _ _, ⟨rfl, rfl⟩⟩
  cases i with
  | batr len mv =>
    exact ⟨fun hp he => ⟨_, execBatr_badEcho hp len mv (Ne.symm he), hraise⟩, execBatr_of_ne_check len mv⟩
  | posr len c es =>
    exact ⟨fun hp he => ⟨_, execPosr_badEcho hp len c es (Ne.symm he), hraise⟩, execPosr_of_ne_check len c es⟩
  | move _ _ _ => cases hi
  | batq => cases hi
  | unload _ => cases hi
  | posq _ => cases hi

/-- Settles O44. -/
theorem voltsAreMillivoltsOverThousand : Obligations.VoltsAreMillivoltsOverThousand := by
  intro mv
  simp [volts, Rat.mkRat_eq_div]

/-! #### CHECK (rule R96) -/

/-- CHECK has the bytes of a response to its own query (rules R57, R71). -/
def ResponseThere (s : State) : Prop :=
  s.echo = opBattery ∧ s.rxbuf.length = 6 ∨ s.echo = opPosition ∧ s.rxbuf.length = 3 * s.nlat.toNat + 5

/-- Every response is long enough for a frame header (rule R60). -/
theorem ResponseThere.eq_cons {s : State} (h : ResponseThere s) :
    ∃ s0 s1 len op payload, s.rxbuf = s0 :: s1 :: len :: op :: payload := by
  have hlen : 4 ≤ s.rxbuf.length := by
    rcases h with ⟨-, h⟩ | ⟨-, h⟩ <;> omega
  match s.rxbuf, hlen with
  | s0 :: s1 :: len :: op :: payload, _ => exact ⟨s0, s1, len, op, payload, rfl⟩

theorem engineCheck_badSync {s : State} (h : ResponseThere s)
    (hs : s.rxbuf[0]? ≠ some 0x55 ∨ s.rxbuf[1]? ≠ some 0x55) : engineCheck s = .next (raise .badSync s) := by
  obtain ⟨s0, s1, len, op, payload, hr⟩ := h.eq_cons
  have hbad : s0 ≠ 0x55 ∨ s1 ≠ 0x55 := by simpa [hr] using hs
  rw [engineCheck, fetchResponse_badSync hr hbad]

theorem engineCheck_badEcho {s : State} (h : ResponseThere s) (h0 : s.rxbuf[0]? = some 0x55)
    (h1 : s.rxbuf[1]? = some 0x55) (h3 : s.rxbuf[3]? ≠ some s.echo) : engineCheck s = .next (raise .badEcho s) := by
  obtain ⟨s0, s1, len, op, payload, hr⟩ := h.eq_cons
  obtain rfl : s0 = 0x55 := by simpa [hr] using h0
  obtain rfl : s1 = 0x55 := by simpa [hr] using h1
  have hecho : op ≠ s.echo := by simpa [hr] using h3
  rw [engineCheck, fetchResponse_badEcho hr hecho]

/-- The positions that CHECK delivers, by frame index, and 0 where the request has no id (rule R98). -/
theorem rposOf_responsePositions_toNat (r : List Byte) (n : Nat) {i : Nat} (h : i < 256) :
    (rposOf (responsePositions r n))[i].toNat =
      if i < n then (r.getD (6 + 3 * i) 0).toNat + 256 * (r.getD (7 + 3 * i) 0).toNat else 0 := by
  rw [rposOf_getElem, responsePositions_getD, apply_ite BitVec.toNat, le16_toNat]
  rfl

/-- Settles O28, by the three tests of CHECK in their order: sync, echo, and the request's kind. -/
theorem checkDecidesByIndex : Obligations.CheckDecidesByIndex := by
  intro d s hp hthere
  have hraise (c : Cause) : SameLatches s (raise c s) ∧ SameStreams s (raise c s) :=
    ⟨raise_sameLatches c s _ _, ⟨rfl, rfl⟩⟩
  rw [engineStep_check d hp]
  by_cases hs : s.rxbuf[0]? = some 0x55 ∧ s.rxbuf[1]? = some 0x55
  case neg =>
    obtain ⟨hlatches, hstreams⟩ := hraise .badSync
    exact ⟨_, engineCheck_badSync hthere (not_and_or.mp hs), hlatches, hstreams,
      fun _ => raise_ended .badSync s, fun h0 h1 => absurd ⟨h0, h1⟩ hs⟩
  obtain ⟨h0, h1⟩ := hs
  have hsync (hbad : s.rxbuf[0]? ≠ some 0x55 ∨ s.rxbuf[1]? ≠ some 0x55) : False := hbad.elim (· h0) (· h1)
  by_cases h3 : s.rxbuf[3]? = some s.echo
  case neg =>
    obtain ⟨hlatches, hstreams⟩ := hraise .badEcho
    exact ⟨_, engineCheck_badEcho hthere h0 h1 h3, hlatches, hstreams, fun hbad => (hsync hbad).elim,
      fun _ _ => ⟨fun _ => raise_ended .badEcho s, fun h => absurd h h3⟩⟩
  rcases hthere with ⟨he, hl⟩ | ⟨he, hl⟩
  · have hc := complete_result_completed s kindBattery (le16 (s.rxbuf.getD 4 0) (s.rxbuf.getD 5 0)) s.rcnt s.rpos
      s.txlog
    refine ⟨_, engineCheck_battery hp h0 h1 h3 he hl, hc.latches, ⟨rfl, rfl⟩, fun hbad => (hsync hbad).elim,
      fun _ _ => ⟨absurd h3, fun _ => ⟨hc, fun _ => ⟨rfl, rfl, rfl, le16_toNat _ _⟩, fun hother => ?_⟩⟩⟩
    simp [he] at hother
  · have hc := complete_result_completed s kindPositions s.vbat s.nlat
      (rposOf (responsePositions s.rxbuf s.nlat.toNat)) s.txlog
    refine ⟨_, engineCheck_positions hp h0 h1 h3 he hl, hc.latches, ⟨rfl, rfl⟩, fun hbad => (hsync hbad).elim,
      fun _ _ => ⟨absurd h3, fun _ => ⟨hc, fun hother => ?_, fun _ => ⟨rfl, rfl, rfl, fun _ hi => ?_⟩⟩⟩⟩
    · simp [he] at hother
    · exact rposOf_responsePositions_toNat _ _ hi

/-! #### START from the operand registers (rule R91) -/

/-- The encoder rule that START applies to the operand registers, by CMD; `hostStart_eq_startWith` says so. -/
def startEncoder (s : State) : Except Cause (List Byte × Nat) :=
  if s.cmd = opMove then encodeMove (s.idList s.nid.toNat) (s.posList s.npos.toNat) s.dur
  else if s.cmd = opBattery then encodeBatq
  else if s.cmd = opUnload then encodeUnload (s.idList s.nid.toNat)
  else if s.cmd = opPosition then encodePosq (s.idList s.nid.toNat)
  else .error .badOpcode

theorem toByte_idList_length (s : State) : toByte (s.idList s.nid.toNat).length = s.nid := by
  rw [idList_length, toByte_toNat]

/-- START latches CMD and NID whatever CMD selects. -/
theorem hostStart_eq_startWith (s : State) : hostStart s = .next (startWith s.cmd s.nid (startEncoder s) s) := by
  unfold hostStart fetchCommand startEncoder startBadOpcode
  split_ifs with hm hb hu hp
  · simp only [exec, execMove, toByte_idList_length, hm]
  · simp only [exec, execBatq, hb]
  · simp only [exec, execUnload, toByte_idList_length, hu]
  · simp only [exec, execPosq, toByte_idList_length, hp]
  · rfl

/-- The operand registers hold a command that START accepts (rules R70, R81 to R84). -/
def LegalOperands (s : State) : Prop :=
  s.cmd = opMove ∧ s.nid = s.npos ∧ s.nid.toNat ≤ 83 ∨ s.cmd = opBattery ∨
    (s.cmd = opUnload ∨ s.cmd = opPosition) ∧ s.nid.toNat ≤ 252

theorem startEncoder_accepts {s : State} (h : LegalOperands s) :
    ∃ i, fetchCommand s = some i ∧ i.wf = true ∧
      startEncoder s = .ok (encode i, expectedLength s.cmd s.nid.toNat) := by
  have hids := idList_length s s.nid
  rcases h with ⟨hm, hn, hmax⟩ | hb | ⟨hu | hp, hmax⟩
  · have hps : (s.idList s.nid.toNat).length = (s.posList s.npos.toNat).length := by
      rw [hids, posList_length, hn]
    refine ⟨_, fetchCommand_move hm, ?_, ?_⟩
    · simp [Instr.wf, ← hps, hids, hmax]
    · simp [startEncoder, expectedLength, hm, encodeMove_ok s.dur hps (hids.trans_le hmax)]
  · exact ⟨.batq, by simp [fetchCommand, hb], rfl, by simp [startEncoder, expectedLength, encodeBatq, hb]⟩
  · refine ⟨.unload (s.idList s.nid.toNat), by simp [fetchCommand, hu], ?_, ?_⟩
    · simpa [Instr.wf, hids] using hmax
    · simp [startEncoder, expectedLength, hu, encodeUnload_ok (hids.trans_le hmax)]
  · refine ⟨.posq (s.idList s.nid.toNat), by simp [fetchCommand, hp], ?_, ?_⟩
    · simpa [Instr.wf, hids] using hmax
    · simp [startEncoder, expectedLength, hp, encodePosq_ok (hids.trans_le hmax), hids]

/-- EXP is wide enough for every count that NLAT can hold (rules R28, R29). -/
theorem expectedLength_lt (op n : Byte) : expectedLength op n.toNat < 1024 := by
  have := n.isLt
  unfold expectedLength
  split_ifs <;> omega

/-- Whether it is refused or accepted, a START that is not ignored clears the result, latches its opcode and count and
leaves operands, streams and inputs. -/
theorem startWith_frame {s : State} (op n : Byte) (enc : Except Cause (List Byte × Nat)) (hb : s.busy = false) :
    (startWith op n enc s).echo = op ∧ (startWith op n enc s).nlat = n ∧ (startWith op n enc s).pcnt = 0 ∧
      (startWith op n enc s).rxbuf = [] ∧ NoResult (startWith op n enc s) ∧ SameOperands s (startWith op n enc s) ∧
      SameStreams s (startWith op n enc s) ∧ SameInputs s (startWith op n enc s) := by
  cases enc with
  | error c =>
    have hend := raise_start_ended c op n s
    rw [startWith_error op n hb rfl]
    exact ⟨rfl, rfl, rfl, rfl, hend.result, hend.operands, ⟨rfl, rfl⟩, hend.inputs⟩
  | ok fe =>
    have hstart := accept_started op n fe.1 fe.2 s
    rw [startWith_ok op n hb rfl]
    exact ⟨rfl, rfl, rfl, rfl, hstart.result, hstart.operands, hstart.streams, hstart.inputs⟩

/-- Settles O20: START is `startWith` under the encoder rule that CMD selects, and the clauses are that rule's results. -/
theorem startChecksThenEncodes : Obligations.StartChecksThenEncodes := by
  intro s hb
  have hids := idList_length s s.nid
  have hrefuse {c : Cause} (hc : startEncoder s = .error c) :
      EndedWith c.err c.esub s (startWith s.cmd s.nid (startEncoder s) s) := by
    rw [startWith_error s.cmd s.nid hb hc]
    exact raise_start_ended c s.cmd s.nid s
  obtain ⟨hecho, hnlat, hpcnt, hrxbuf, hresult, hoperands, hstreams, hinputs⟩ :=
    startWith_frame s.cmd s.nid (startEncoder s) hb
  refine ⟨_, hostStart_eq_startWith s, hecho, hnlat, hpcnt, hrxbuf, hresult, hoperands, hstreams, hinputs,
    fun h1 h2 h3 h4 => ?_, fun hm hne => ?_, fun h => ?_, fun h => ?_⟩
  · exact hrefuse (c := .badOpcode) (by rw [startEncoder, if_neg h1, if_neg h2, if_neg h3, if_neg h4])
  · have hlen : (s.idList s.nid.toNat).length ≠ (s.posList s.npos.toNat).length := by
      rw [hids, posList_length]
      exact fun h => hne (BitVec.eq_of_toNat_eq h)
    exact hrefuse (c := .lengthMismatch) ((if_pos hm).trans (encodeMove_mismatch s.dur hlen))
  · refine hrefuse (c := .countRange) ?_
    rcases h with ⟨hm, hn, hmax⟩ | ⟨hu | hp, hmax⟩
    · have hlen : (s.idList s.nid.toNat).length = (s.posList s.npos.toNat).length := by
        rw [hids, posList_length, hn]
      exact (if_pos hm).trans (encodeMove_range s.dur hlen (hmax.trans_eq hids.symm))
    · simp [startEncoder, hu, encodeUnload_range (hmax.trans_eq hids.symm)]
    · simp [startEncoder, hp, encodePosq_range (hmax.trans_eq hids.symm)]
  · obtain ⟨i, hi, hwf, henc⟩ := startEncoder_accepts h
    obtain ⟨hstart, hph, hexp, htxlen, hframe⟩ := startWith_accepts s.cmd s.nid hb henc
      (encode_length_le (fetchCommand_key hi) hwf) (expectedLength_lt s.cmd s.nid)
    refine ⟨hstart.busy, hstart.done, hstart.err, hstart.esub, ?_, hexp, i, hi, hwf, hframe, htxlen⟩
    simp only [hph, isQuery_iff]

/-! #### The transitions of PH (rule R103) -/

/-- What one engine step of a command in progress can be: the command ends, goes on to its next phase, or polls again. -/
inductive EngineTransition (s : State) : State → Prop where
  | ended {t : State} (hp : t.ph = .idle) (hd : t.done = true) : EngineTransition s t
  | flushed (q : List Byte) (hp : s.ph = .flush) : EngineTransition s { s with rxq := q, ph := .send }
  | sent (l : List Byte) (hp : s.ph = .send) (hq : isQuery s.echo = true) :
      EngineTransition s { s with txlog := l, ph := .poll }
  | levelled (hp : s.ph = .poll) (hl : s.rxq.length = s.exp.toNat) : EngineTransition s { s with ph := .read }
  | polled (hp : s.ph = .poll) (hc : s.pcnt ≠ s.tmo) : EngineTransition s { s with pcnt := s.pcnt + 1 }
  | read (q b : List Byte) (hp : s.ph = .read) : EngineTransition s { s with rxq := q, rxbuf := b, ph := .check }

/-- Every error ends the command. -/
theorem EngineTransition.raised (c : Cause) (s s' : State) : EngineTransition s (raise c s') := .ended rfl rfl

theorem engineFlush_transition {s : State} (o : RxOutcome) (hp : s.ph = .flush) :
    EngineTransition s (engineFlush o s) := by
  rcases engineFlush_cases o s with ⟨-, e⟩ | ⟨-, e⟩ | ⟨k, e⟩ | ⟨k, e⟩ <;> rw [e]
  · exact .flushed s.rxq hp
  · exact .flushed [] hp
  · exact .raised _ _ _
  · exact .raised _ _ _

theorem engineSend_transition {s : State} (o : TxOutcome) (hp : s.ph = .send) : EngineTransition s (engineSend o s) := by
  rcases engineSend_cases o s with ⟨hq, e⟩ | ⟨-, e⟩ | ⟨k, e⟩ <;> rw [e]
  · exact .sent _ hp hq
  · exact .ended rfl rfl
  · exact .raised _ _ _

theorem enginePoll_transition {s : State} (hp : s.ph = .poll) : EngineTransition s (enginePoll s) := by
  rcases enginePoll_cases s with ⟨hl, e⟩ | ⟨-, -, e⟩ | ⟨-, hc, e⟩ <;> rw [e]
  · exact .levelled hp hl
  · exact .raised _ _ _
  · exact .polled hp hc

theorem engineRead_transition {s : State} (o : RxOutcome) (h : Inv s) (hp : s.ph = .read) :
    EngineTransition s (engineRead o s) := by
  obtain ⟨hexp, -⟩ := exp_bounds h (h.query_phase (.inr (.inr (.inl hp)))) (h.busy_of (by simp [hp]))
  rcases engineRead_cases o s (by omega) with ⟨-, e⟩ | ⟨k, e⟩ | ⟨k, e⟩ <;> rw [e]
  · exact .read _ _ hp
  · exact .raised _ _ _
  · exact .raised _ _ _

/-- CHECK finds the response to its own query: READ stored the expected length. -/
theorem Inv.responseThere {s : State} (h : Inv s) (hp : s.ph = .check) : ResponseThere s := by
  have hq := (isQuery_iff _).mp (h.query_phase (.inr (.inr (.inr hp))))
  have hlen := (h.check_length hp).trans (h.busy_exp (h.busy_of (by simp [hp])))
  rcases hq with he | he
  · exact .inl ⟨he, by simpa [expectedLength, he] using hlen⟩
  · exact .inr ⟨he, by simpa [expectedLength, he] using hlen⟩

/-- Under the invariant CHECK ends the command, in one of the three ways of rule R96. -/
theorem engineCheck_ends {s : State} (d : Draw) (h : Inv s) (hp : s.ph = .check) :
    ∃ t, engineStep d s = .next t ∧ t.ph = .idle ∧ t.done = true := by
  obtain ⟨t, ht, -, -, hbad, hgood⟩ := checkDecidesByIndex d s hp (h.responseThere hp)
  refine ⟨t, ht, ?_⟩
  by_cases hs : s.rxbuf[0]? = some 0x55 ∧ s.rxbuf[1]? = some 0x55
  case neg =>
    have hend := hbad (not_and_or.mp hs)
    exact ⟨hend.ph, hend.done⟩
  obtain ⟨hecho, hok⟩ := hgood hs.1 hs.2
  by_cases h3 : s.rxbuf[3]? = some s.echo
  · obtain ⟨hend, -⟩ := hok h3
    exact ⟨hend.ph, hend.done⟩
  · have hend := hecho h3
    exact ⟨hend.ph, hend.done⟩

/-- An engine step of a command in progress never stops the machine, and takes one of the transitions. -/
theorem engineStep_transition {s : State} (d : Draw) (h : Inv s) (hp : s.ph ≠ .idle) :
    ∃ t, engineStep d s = .next t ∧ EngineTransition s t := by
  cases hph : s.ph with
  | idle => exact absurd hph hp
  | flush => exact ⟨_, engineStep_flush d hph, engineFlush_transition d.rx hph⟩
  | send => exact ⟨_, engineStep_send d hph, engineSend_transition d.tx hph⟩
  | poll => exact ⟨_, engineStep_poll d hph, enginePoll_transition hph⟩
  | read => exact ⟨_, engineStep_read d hph, engineRead_transition d.rx h hph⟩
  | check =>
    obtain ⟨t, ht, hidle, hdone⟩ := engineCheck_ends d h hph
    exact ⟨t, ht, .ended hidle hdone⟩

/-- The rows of rule R103's table out of a phase that is not IDLE. -/
def PhaseTableRow (s t : State) : Prop :=
  t.ph = .idle ∧ t.done = true ∨
    s.ph = .flush ∧ t.ph = .send ∨
    s.ph = .send ∧ t.ph = .poll ∧ (s.echo = opBattery ∨ s.echo = opPosition) ∨
    s.ph = .poll ∧ t.ph = .read ∧ s.rxq.length = s.exp.toNat ∨
    s.ph = .read ∧ t.ph = .check

theorem EngineTransition.phaseTableRow {s t : State} (h : EngineTransition s t) (hne : t.ph ≠ s.ph) :
    PhaseTableRow s t := by
  cases h with
  | ended hp hd => exact .inl ⟨hp, hd⟩
  | flushed q hp => exact .inr (.inl ⟨hp, rfl⟩)
  | sent l hp hq => exact .inr (.inr (.inl ⟨hp, rfl, (isQuery_iff _).mp hq⟩))
  | levelled hp hl => exact .inr (.inr (.inr (.inl ⟨hp, rfl, hl⟩)))
  | polled _ _ => exact absurd rfl hne
  | read q b hp => exact .inr (.inr (.inr (.inr ⟨hp, rfl⟩)))

/-- An engine step that changes PH follows the table; in IDLE there is none (rule R130). -/
theorem engineStep_phaseTableRow {d : Draw} {s t : State} (h : Inv s) (ht : engineStep d s = .next t)
    (hne : t.ph ≠ s.ph) : s.ph ≠ .idle ∧ PhaseTableRow s t := by
  by_cases hp : s.ph = .idle
  · rw [engineStep_idle d hp] at ht
    cases ht
    exact absurd rfl hne
  · obtain ⟨t', ht', htrans⟩ := engineStep_transition d h hp
    cases ht.symm.trans ht'
    exact ⟨hp, htrans.phaseTableRow hne⟩

/-- An encoder rule passes for the four opcodes alone (rule R72). -/
theorem cmd_of_startEncoder_ok {s : State} {fe : List Byte × Nat} (h : startEncoder s = .ok fe) :
    isQuery s.cmd = true ∧ (s.cmd = opBattery ∨ s.cmd = opPosition) ∨
      isQuery s.cmd = false ∧ (s.cmd = opMove ∨ s.cmd = opUnload) := by
  unfold startEncoder at h
  split_ifs at h with hm hb hu hp
  · exact .inr ⟨by rw [hm]; rfl, .inl hm⟩
  · exact .inl ⟨by rw [hb]; rfl, .inl hb⟩
  · exact .inr ⟨by rw [hu]; rfl, .inr hu⟩
  · exact .inl ⟨by rw [hp]; rfl, .inr hp⟩

/-- The phase that START leads to: IDLE for an error, FLUSH for a query, SEND for a MOVE or an UNLOAD (rule R91). -/
theorem hostStart_ph {s t : State} (hb : s.busy = false) (ht : hostStart s = .next t) :
    t.ph = .idle ∨ t.ph = .flush ∧ (s.cmd = opBattery ∨ s.cmd = opPosition) ∨
      t.ph = .send ∧ (s.cmd = opMove ∨ s.cmd = opUnload) := by
  rw [hostStart_eq_startWith] at ht
  cases ht
  rcases startWith_cases s.cmd s.nid (startEncoder s) s with ⟨hb', -⟩ | ⟨-, c, -, e⟩ | ⟨-, f, x, hok, e⟩
  · exact absurd hb' (by simp [hb])
  · exact .inl (by rw [e, raise_ph])
  · rw [e, State.accept_ph, State.startClear_echo]
    rcases cmd_of_startEncoder_ok hok with ⟨hq, hcmd⟩ | ⟨hq, hcmd⟩
    · exact .inr (.inl ⟨if_pos hq, hcmd⟩)
    · exact .inr (.inr ⟨if_neg (by simp [hq]), hcmd⟩)

/-- A host write that changes PH is an accepted START from IDLE. -/
theorem hostWrite_ph {w : Write} {s t : State} (h : Inv s) (ht : hostWrite w s = .next t) (hne : t.ph ≠ s.ph) :
    s.ph = .idle ∧ w = .ctrl true ∧
      (t.ph = .flush ∧ (s.cmd = opBattery ∨ s.cmd = opPosition) ∨
        t.ph = .send ∧ (s.cmd = opMove ∨ s.cmd = opUnload)) := by
  cases hb : s.busy with
  | true =>
    rw [hostWrite_busy w hb] at ht
    cases ht
    exact absurd rfl hne
  | false =>
    have hp : s.ph = .idle := h.idle_iff.mpr hb
    by_cases hw : ∃ b, w = .ctrl b
    · obtain ⟨b, rfl⟩ := hw
      cases b with
      | false =>
        rw [hostWrite_zero] at ht
        cases ht
        exact absurd rfl hne
      | true =>
        rw [hostWrite_start hb] at ht
        exact ⟨hp, rfl, (hostStart_ph hb ht).resolve_left fun hidle => hne (hidle.trans hp.symm)⟩
    · rw [hostWrite_register hb fun b hc => hw ⟨b, hc⟩] at ht
      cases ht
      exact absurd (writeRegister_ph w s) hne

/-- Settles O38: of the moves, only a host write and an engine step can change PH, the first from IDLE and the second by the
table. -/
theorem phaseChangesOnlyByTheTable : Obligations.PhaseChangesOnlyByTheTable := by
  intro s t h ht hne hreset
  cases hs : s.sched with
  | nil =>
    rw [step_nil hs] at ht
    by_cases hp : s.ph = .idle
    · rw [engineAlone, if_pos hp] at ht
      cases ht
      exact absurd rfl hne
    · rw [engineAlone_running hp] at ht
      obtain ⟨-, hrow⟩ := engineStep_phaseTableRow (h.inputs s.sched (s.draws + 1)) ht hne
      exact ⟨fun hidle => absurd hidle hp, fun _ => ⟨.inl rfl, hrow⟩⟩
  | cons m ms =>
    rw [step_cons hs] at ht
    have hms := h.inputs ms s.draws
    cases m with
    | write w =>
      obtain ⟨hp, rfl, hstart⟩ := hostWrite_ph hms ht hne
      exact ⟨fun _ => ⟨⟨ms, rfl⟩, hstart⟩, fun hrun => absurd hp hrun⟩
    | read _ => cases ht; exact absurd rfl hne
    | arrive _ => cases ht; exact absurd rfl hne
    | engine d =>
      obtain ⟨hp, hrow⟩ := engineStep_phaseTableRow hms ht hne
      exact ⟨fun hidle => absurd hidle hp, fun _ => ⟨.inr ⟨d, ms, rfl⟩, hrow⟩⟩
    | reset => exact absurd hs (hreset ms)

/-! #### The end of every command (rule R104)

`stepsLeft` falls with every engine step of a command in progress, and arrivals do not raise it. -/

theorem stepsLeft_eq_zero {s : State} (h : stepsLeft s = 0) : s.ph = .idle := by
  cases hp : s.ph with
  | idle => rfl
  | send => simp only [stepsLeft, hp] at h; split at h <;> omega
  | _ => simp [stepsLeft, hp] at h

theorem stepsLeft_of_idle {s : State} (h : s.ph = .idle) : stepsLeft s = 0 := by
  simp only [stepsLeft, h]

theorem stepsLeft_arrive (s : State) (b : List Byte) : stepsLeft (s.arrive b) = stepsLeft s := rfl

/-- POLL comes closer to its end because PCNT is below TMO when it counts on; every other transition goes one phase on. -/
theorem EngineTransition.stepsLeft_lt {s t : State} (h : EngineTransition s t) (hinv : Inv s) (hp : s.ph ≠ .idle) :
    stepsLeft t < stepsLeft s := by
  have hbound := hinv.pcnt_bound (hinv.busy_of hp)
  cases h with
  | ended hidle _ =>
    rw [stepsLeft_of_idle hidle]
    exact Nat.pos_of_ne_zero fun h0 => hp (stepsLeft_eq_zero h0)
  | flushed q hph => simp only [stepsLeft, hph]; split <;> omega
  | sent l hph hq => simp only [stepsLeft, hph, hq, if_true]; omega
  | levelled hph _ => simp only [stepsLeft, hph]; omega
  | polled hph hc =>
    have hlt : s.pcnt.toNat < s.tmo.toNat := lt_of_le_of_ne hbound fun h => hc (BitVec.eq_of_toNat_eq h)
    simp only [stepsLeft, hph, pcnt_add_one hlt]
    omega
  | read q b hph => simp only [stepsLeft, hph]; omega

/-- A command that has gone out of progress has ended: DONE is set (rules R19, R99, R118). -/
def EndedIfIdle (s : State) : Prop := s.ph = .idle → s.done = true

theorem EngineTransition.endedIfIdle {s t : State} (h : EngineTransition s t) (hp : s.ph ≠ .idle) : EndedIfIdle t := by
  cases h with
  | ended _ hd => exact fun _ => hd
  | polled _ _ => exact fun hidle => absurd hidle hp
  | _ => exact fun hidle => by cases hidle

/-- One engine step, in IDLE or in a phase: it does not stop, and one step less is left. -/
theorem engineStep_stepsLeft {s : State} (d : Draw) (h : Inv s) (hend : EndedIfIdle s) :
    ∃ t, engineStep d s = .next t ∧ stepsLeft t ≤ stepsLeft s - 1 ∧ EndedIfIdle t := by
  by_cases hp : s.ph = .idle
  · exact ⟨s, engineStep_idle d hp, by rw [stepsLeft_of_idle hp], hend⟩
  · obtain ⟨t, ht, htrans⟩ := engineStep_transition d h hp
    exact ⟨t, ht, Nat.le_sub_one_of_lt (htrans.stepsLeft_lt h hp), htrans.endedIfIdle hp⟩

theorem arrive_operands (s : State) (b : List Byte) : SameOperands s (s.arrive b) :=
  ⟨rfl, rfl, rfl, rfl, rfl, rfl, rfl⟩

/-- As many engine steps as are left end the command, whatever arrives between them; more leave it ended. -/
theorem engineRun_ends {s : State} {l : List (List Byte × Draw)} (h : Inv s) (hend : EndedIfIdle s)
    (hl : stepsLeft s ≤ l.length) :
    ∃ t, engineRun l s = .next t ∧ Inv t ∧ t.ph = .idle ∧ t.done = true ∧ SameOperands s t := by
  induction l generalizing s with
  | nil =>
    have hp : s.ph = .idle := stepsLeft_eq_zero (Nat.le_zero.mp hl)
    exact ⟨s, rfl, h, hp, hend hp, .refl s⟩
  | cons bd rest ih =>
    obtain ⟨b, d⟩ := bd
    obtain ⟨u, hu, hleft, hend'⟩ := engineStep_stepsLeft d (h.arrive b) hend
    rw [stepsLeft_arrive] at hleft
    obtain ⟨hops, -⟩ := engineStep_frame hu
    obtain ⟨t, ht, hinv, hp, hdone, hops'⟩ :=
      ih (engineStep_inv (h.arrive b) hu) hend' (by rw [List.length_cons] at hl; omega)
    refine ⟨t, ?_, hinv, hp, hdone, ((arrive_operands s b).trans hops).trans hops'⟩
    rw [engineRun, hu]
    exact ht

/-- A command that is no query has no phase but SEND (rules R90, R103). -/
theorem Inv.ph_of_command {s : State} (h : Inv s) (hq : isQuery s.echo = false) : s.ph = .idle ∨ s.ph = .send := by
  cases hp : s.ph with
  | idle => exact .inl rfl
  | send => exact .inr rfl
  | _ => exact absurd (h.query_phase (by simp [hp])) (by simp [hq])

theorem stepsLeft_le_of_command {s : State} (h : Inv s) (hq : isQuery s.echo = false) : stepsLeft s ≤ 1 := by
  rcases h.ph_of_command hq with hp | hp <;> simp [stepsLeft, hp, hq]

theorem stepsLeft_le_tmo (s : State) : stepsLeft s ≤ s.tmo.toNat + 5 := by
  cases hp : s.ph with
  | send => simp only [stepsLeft, hp]; split <;> omega
  | _ => simp only [stepsLeft, hp]; omega

/-- The bounds of rule R104: a MOVE or an UNLOAD has SEND alone, and a query polls TMO + 1 times at most. -/
theorem stepsLeft_le {s : State} (h : Inv s) :
    stepsLeft s ≤ if s.echo = opMove ∨ s.echo = opUnload then 1 else s.tmo.toNat + 5 := by
  split
  case isTrue hc => exact stepsLeft_le_of_command h (by rcases hc with e | e <;> rw [e] <;> rfl)
  case isFalse => exact stepsLeft_le_tmo s

/-- Settles O40, by induction over the run with the steps that are left. -/
theorem everyCommandEnds : Obligations.EveryCommandEnds := by
  intro s l h hb hl
  have hend : EndedIfIdle s := fun hp => by simp [h.idle_iff.mp hp] at hb
  obtain ⟨t, ht, hinv, hp, hdone, hops⟩ := engineRun_ends h hend ((stepsLeft_le h).trans hl)
  exact ⟨t, ht, hp, hinv.idle_iff.mp hp, hdone, hops⟩

end Sys2Proof.Machine

/-! ### Nothing is fatal (family 60_exceptions) -/

namespace Sys2Proof.Machine

/-- A host write never stops the machine, in whatever state: START ends in `startWith` whatever CMD selects. -/
theorem hostWrite_next (w : Write) (s : State) : ∃ t, hostWrite w s = .next t := by
  rcases hostWrite_cases w s with e | ⟨-, e⟩ | ⟨-, -, e⟩ | ⟨-, i, hi, e⟩
  · exact ⟨_, e⟩
  · exact ⟨_, e⟩
  · exact ⟨_, e⟩
  · rw [← hostStart_some hi] at e
    exact ⟨_, e.trans (hostStart_eq_startWith s)⟩

/-- Under the invariant an engine step never stops the machine, whatever the transport answers (rules R57, R103). -/
theorem engineStep_next {s : State} (d : Draw) (h : Inv s) : ∃ t, engineStep d s = .next t := by
  by_cases hp : s.ph = .idle
  · exact ⟨s, engineStep_idle d hp⟩
  · obtain ⟨t, ht, -⟩ := engineStep_transition d h hp
    exact ⟨t, ht⟩

theorem engineAlone_next {s : State} (h : Inv s) : ∃ t, engineAlone s = .next t := by
  by_cases hp : s.ph = .idle
  · exact ⟨s, if_pos hp⟩
  · rw [engineAlone_running hp]
    exact engineStep_next _ (h.inputs s.sched (s.draws + 1))

theorem moveStep_next {s : State} (m : Move) (h : Inv s) : ∃ t, moveStep m s = .next t := by
  cases m with
  | write w => exact hostWrite_next w s
  | read _ => exact ⟨s, rfl⟩
  | arrive b => exact ⟨s.arrive b, rfl⟩
  | engine d => exact engineStep_next d h
  | reset => exact ⟨s.resetBlock, rfl⟩

/-- Settles O37: no move stops the machine; the one fault there is, CHECK reading beyond RXBUF, needs a response shorter than
the invariant allows. -/
theorem nothingStopsTheMachine : Obligations.NothingStopsTheMachine := by
  intro s h
  cases hs : s.sched with
  | nil =>
    rw [step_nil hs]
    exact engineAlone_next h
  | cons m ms =>
    rw [step_cons hs]
    exact moveStep_next m (h.inputs ms s.draws)

/-- Settles O34, by what `raise` leaves of a state and the code table of rule R115. -/
theorem raiseIsTheErrorEntry : Obligations.RaiseIsTheErrorEntry := by
  refine ⟨fun c s => ⟨raise_ended c s, raise_sameLatches c s _ _, ⟨rfl, rfl⟩⟩, fun s => ?_⟩
  simp only [raise_err, raise_esub]
  decide

end Sys2Proof.Machine

/-! ### Reset and hazards (family 70_reset_and_hazards) -/

namespace Sys2Proof.Machine

/-! #### A level above EXP in POLL (rule R136) -/

/-- A run takes its first engine step after the bytes that arrive before it, and then the rest. -/
theorem engineRun_cons {b : List Byte} {d : Draw} {s t : State} (rest : List (List Byte × Draw))
    (h : engineStep d (s.arrive b) = .next t) : engineRun ((b, d) :: rest) s = engineRun rest t := by
  rw [engineRun, h]

/-- Arrivals only raise the level, so no later sample equals EXP: every one but the last counts PCNT on, and the last finds
PCNT = TMO. The bytes that arrived meanwhile stand at the tail of RXQ. -/
theorem engineRun_poll_above {s : State} {l : List (List Byte × Draw)} (hp : s.ph = .poll)
    (hlevel : s.exp.toNat < s.rxq.length) (hc : s.pcnt.toNat ≤ s.tmo.toNat)
    (hl : l.length = s.tmo.toNat - s.pcnt.toNat + 1) :
    engineRun l s = .next (raise .pollExpired { s.arrive (l.map Prod.fst).flatten with pcnt := s.tmo }) := by
  induction l generalizing s with
  | nil => simp at hl
  | cons bd rest ih =>
    obtain ⟨b, d⟩ := bd
    have hph : (s.arrive b).ph = .poll := hp
    have habove : s.exp.toNat < (s.arrive b).rxq.length := by
      rw [State.arrive_rxq, List.length_append]
      omega
    rw [List.length_cons] at hl
    by_cases hend : s.pcnt = s.tmo
    · have hstep : engineStep d (s.arrive b) = .next (raise .pollExpired (s.arrive b)) := by
        rw [engineStep_poll d hph, enginePoll_expired habove.ne' hend]
      have hrest : rest = [] := List.eq_nil_of_length_eq_zero (by rw [hend] at hl; omega)
      rw [engineRun_cons rest hstep, hrest, ← hend]
      simp [engineRun, State.arrive]
    · have hstep : engineStep d (s.arrive b) = .next { s.arrive b with pcnt := s.pcnt + 1 } := by
        rw [engineStep_poll d hph, enginePoll_again habove.ne' hend, State.arrive_pcnt]
      have hlt : s.pcnt.toNat < s.tmo.toNat := lt_of_le_of_ne hc (mt BitVec.eq_of_toNat_eq hend)
      have hcount := pcnt_add_one hlt
      have hleft : rest.length = s.tmo.toNat - (s.pcnt + 1).toNat + 1 := by omega
      rw [engineRun_cons rest hstep,
        ih (s := { s.arrive b with pcnt := s.pcnt + 1 }) hph habove (hcount.trans_le hlt) hleft]
      simp [State.arrive]

/-- Settles O41: the run ends in the raise of `engineRun_poll_above`, whose state differs from `s` in RXQ and PCNT only. -/
theorem levelAboveExpectedTimesOut : Obligations.LevelAboveExpectedTimesOut := by
  intro s l hp hlevel hc hl
  refine ⟨_, engineRun_poll_above hp hlevel hc hl, ?_, rfl, rfl⟩
  exact { raise_ended .pollExpired _ with
    operands := ⟨rfl, rfl, rfl, rfl, rfl, rfl, rfl⟩
    inputs := ⟨rfl, rfl⟩ }

/-! #### Waiting in IDLE, and reset as an event (rules R130 to R132) -/

/-- Settles O2: neither the engine alone nor a scheduled engine step has anything to do in IDLE. -/
theorem idleBlockWaits : Obligations.IdleBlockWaits := by
  refine fun s hp => ⟨fun hs => ?_, fun d ms hs => ?_⟩
  · exact (step_nil hs).trans (if_pos hp)
  · exact (step_cons hs).trans (engineStep_idle d hp)

theorem resetBlock_noResult (s : State) : NoResult s.resetBlock :=
  ⟨rfl, rfl, rfl, fun _ hi => Vector.getElem_replicate hi⟩

/-- Settles O8: what `resetBlock` does not take from the reset state is RXQ and the model's own fields. -/
theorem resetEventKeepsTheInboundBuffer : Obligations.ResetEventKeepsTheInboundBuffer := by
  intro s ms hs
  refine ⟨_, step_cons hs, rfl, rfl, rfl, rfl, rfl, rfl, resetBlock_noResult _, rfl, ?_, ?_⟩
  · exact ⟨rfl, rfl, rfl, rfl, rfl, rfl, rfl⟩
  · exact ⟨rfl, rfl, rfl, rfl, rfl, rfl, rfl⟩

end Sys2Proof.Machine
